-- ==== Sys2Proof/Word.lean ====
section
/-! DEFINITION. The bit vectors of the hardware: bytes, 12-bit addresses, instruction words and 4-bit register indices
(spec/00_scope.md R5, R8, R9: bit 0 is the least significant bit and every value is unsigned). -/

namespace Sys2Proof

/-- A byte: a general register, a timer, a memory cell (R20, R28, R29, R31). -/
abbrev Byte := BitVec 8

/-- A 12-bit byte address, 0 to 4095 (R22, R60, R92). -/
abbrev Addr := BitVec 12

/-- A 16-bit instruction word (R90), and the width of the cell `I` (R24). -/
abbrev Word := BitVec 16

/-- A 4-bit field: a register index or a row count (R92). -/
abbrev Nibble := BitVec 4

/-- The 80 bytes of the hex font, 16 glyphs of 5 rows (R5, R32). -/
abbrev Font := Vector Byte 80

/-- The 64 x 32 framebuffer by rows: bit `x` of row `y` is the pixel in column `x` and row `y`, which is bit `64 * y + x` of the
row-major array (R34, R211). -/
abbrev Frame := Vector (BitVec 64) 32

end Sys2Proof
end

