-- ==== Sys2Proof/Syntax.lean ====
section
/-! DEFINITION. The 35 instructions (spec/30_encoding.md R95), one constructor per row of spec/opcode_table.json. -/

namespace Sys2Proof

/-- An instruction with its operand fields (R92). The operands `I`, `DT`, `ST`, `K`, `F`, `B`, `[I]` and the `V0` of
`JP V0, nnn` occupy no bits (R94). -/
inductive Instr where
  /-- `CLS`, `00E0` (R210). -/
  | cls
  /-- `RET`, `00EE` (R131). -/
  | ret
  /-- `SYS nnn`, `0nnn` but for `00E0` and `00EE` (R130). -/
  | sysNnn (nnn : Addr)
  /-- `JP nnn`, `1nnn` (R132). -/
  | jpNnn (nnn : Addr)
  /-- `CALL nnn`, `2nnn` (R133). -/
  | callNnn (nnn : Addr)
  /-- `SE Vx, kk`, `3xkk` (R134). -/
  | seVxKk (x : Nibble) (kk : Byte)
  /-- `SNE Vx, kk`, `4xkk` (R135). -/
  | sneVxKk (x : Nibble) (kk : Byte)
  /-- `SE Vx, Vy`, `5xy0` (R136). -/
  | seVxVy (x y : Nibble)
  /-- `LD Vx, kk`, `6xkk` (R160). -/
  | ldVxKk (x : Nibble) (kk : Byte)
  /-- `ADD Vx, kk`, `7xkk` (R161). -/
  | addVxKk (x : Nibble) (kk : Byte)
  /-- `LD Vx, Vy`, `8xy0` (R162). -/
  | ldVxVy (x y : Nibble)
  /-- `OR Vx, Vy`, `8xy1` (R163). -/
  | orVxVy (x y : Nibble)
  /-- `AND Vx, Vy`, `8xy2` (R164). -/
  | andVxVy (x y : Nibble)
  /-- `XOR Vx, Vy`, `8xy3` (R165). -/
  | xorVxVy (x y : Nibble)
  /-- `ADD Vx, Vy`, `8xy4` (R167). -/
  | addVxVy (x y : Nibble)
  /-- `SUB Vx, Vy`, `8xy5` (R168). -/
  | subVxVy (x y : Nibble)
  /-- `SHR Vx{, Vy}`, `8xy6`: `y` is part of the value and ignored by execution (R99, R169). -/
  | shrVxVy (x y : Nibble)
  /-- `SUBN Vx, Vy`, `8xy7` (R170). -/
  | subnVxVy (x y : Nibble)
  /-- `SHL Vx{, Vy}`, `8xyE`: `y` is part of the value and ignored by execution (R99, R171). -/
  | shlVxVy (x y : Nibble)
  /-- `SNE Vx, Vy`, `9xy0` (R137). -/
  | sneVxVy (x y : Nibble)
  /-- `LD I, nnn`, `Annn` (R190). -/
  | ldINnn (nnn : Addr)
  /-- `JP V0, nnn`, `Bnnn` (R138). -/
  | jpV0Nnn (nnn : Addr)
  /-- `RND Vx, kk`, `Cxkk` (R172). -/
  | rndVxKk (x : Nibble) (kk : Byte)
  /-- `DRW Vx, Vy, n`, `Dxyn` (R214). -/
  | drwVxVyN (x y n : Nibble)
  /-- `SKP Vx`, `Ex9E` (R230). -/
  | skpVx (x : Nibble)
  /-- `SKNP Vx`, `ExA1` (R231). -/
  | sknpVx (x : Nibble)
  /-- `LD Vx, DT`, `Fx07` (R232). -/
  | ldVxDt (x : Nibble)
  /-- `LD Vx, K`, `Fx0A` (R233). -/
  | ldVxK (x : Nibble)
  /-- `LD DT, Vx`, `Fx15` (R234). -/
  | ldDtVx (x : Nibble)
  /-- `LD ST, Vx`, `Fx18` (R235). -/
  | ldStVx (x : Nibble)
  /-- `ADD I, Vx`, `Fx1E` (R191). -/
  | addIVx (x : Nibble)
  /-- `LD F, Vx`, `Fx29` (R192). -/
  | ldFVx (x : Nibble)
  /-- `LD B, Vx`, `Fx33` (R193). -/
  | ldBVx (x : Nibble)
  /-- `LD [I], Vx`, `Fx55` (R194). -/
  | ldMemIVx (x : Nibble)
  /-- `LD Vx, [I]`, `Fx65` (R195). -/
  | ldVxMemI (x : Nibble)
  deriving DecidableEq, Repr

end Sys2Proof
end

