-- ==== Sys2Proof/WellFormed.lean ====
section
/-! DEFINITION. Which instruction values are instructions (spec/30_encoding.md R100). The field ranges of R92 and R116 are the
widths of the fields; what is left to check is the operand of `SYS`. -/

namespace Sys2Proof

/-- `SYS 0x0E0` and `SYS 0x0EE` are not instruction values, since the pattern of `SYS` excludes them (R100); every other value
is one. -/
def Instr.wellFormed (i : Instr) : Bool :=
  match i with
  | .sysNnn nnn => nnn != 0x0E0#12 && nnn != 0x0EE#12
  | .cls => true
  | .ret => true
  | .jpNnn _ => true
  | .callNnn _ => true
  | .seVxKk _ _ => true
  | .sneVxKk _ _ => true
  | .seVxVy _ _ => true
  | .ldVxKk _ _ => true
  | .addVxKk _ _ => true
  | .ldVxVy _ _ => true
  | .orVxVy _ _ => true
  | .andVxVy _ _ => true
  | .xorVxVy _ _ => true
  | .addVxVy _ _ => true
  | .subVxVy _ _ => true
  | .shrVxVy _ _ => true
  | .subnVxVy _ _ => true
  | .shlVxVy _ _ => true
  | .sneVxVy _ _ => true
  | .ldINnn _ => true
  | .jpV0Nnn _ => true
  | .rndVxKk _ _ => true
  | .drwVxVyN _ _ _ => true
  | .skpVx _ => true
  | .sknpVx _ => true
  | .ldVxDt _ => true
  | .ldVxK _ => true
  | .ldDtVx _ => true
  | .ldStVx _ => true
  | .addIVx _ => true
  | .ldFVx _ => true
  | .ldBVx _ => true
  | .ldMemIVx _ => true
  | .ldVxMemI _ => true

end Sys2Proof
end

