-- ==== Sys2Proof/Decode.lean ====
section
/-! DEFINITION. The decoder (spec/30_encoding.md R96), total on words and on bytes, and after it the encoder (R100) and the
mask and match of each row (R95). -/

namespace Sys2Proof

/-- The field `x = op[11:8]` (R92). -/
def fieldX (op : Word) : Nibble := op.extractLsb' 8 4

/-- The field `y = op[7:4]` (R92). -/
def fieldY (op : Word) : Nibble := op.extractLsb' 4 4

/-- The field `n = op[3:0]` (R92). -/
def fieldN (op : Word) : Nibble := op.extractLsb' 0 4

/-- The field `kk = op[7:0]` (R92). -/
def fieldKk (op : Word) : Byte := op.extractLsb' 0 8

/-- The field `nnn = op[11:0]` (R92). -/
def fieldNnn (op : Word) : Addr := op.extractLsb' 0 12

/-- The words `8xyL`: the last digit selects the row (R96). -/
def decode8 (op : Word) : Option Instr :=
  match (fieldN op).toNat with
  | 0x0 => some (.ldVxVy (fieldX op) (fieldY op))
  | 0x1 => some (.orVxVy (fieldX op) (fieldY op))
  | 0x2 => some (.andVxVy (fieldX op) (fieldY op))
  | 0x3 => some (.xorVxVy (fieldX op) (fieldY op))
  | 0x4 => some (.addVxVy (fieldX op) (fieldY op))
  | 0x5 => some (.subVxVy (fieldX op) (fieldY op))
  | 0x6 => some (.shrVxVy (fieldX op) (fieldY op))
  | 0x7 => some (.subnVxVy (fieldX op) (fieldY op))
  | 0xE => some (.shlVxVy (fieldX op) (fieldY op))
  | _ => none

/-- The words `ExLL` (R96). -/
def decodeE (op : Word) : Option Instr :=
  match (fieldKk op).toNat with
  | 0x9E => some (.skpVx (fieldX op))
  | 0xA1 => some (.sknpVx (fieldX op))
  | _ => none

/-- The words `FxLL` (R96). -/
def decodeF (op : Word) : Option Instr :=
  match (fieldKk op).toNat with
  | 0x07 => some (.ldVxDt (fieldX op))
  | 0x0A => some (.ldVxK (fieldX op))
  | 0x15 => some (.ldDtVx (fieldX op))
  | 0x18 => some (.ldStVx (fieldX op))
  | 0x1E => some (.addIVx (fieldX op))
  | 0x29 => some (.ldFVx (fieldX op))
  | 0x33 => some (.ldBVx (fieldX op))
  | 0x55 => some (.ldMemIVx (fieldX op))
  | 0x65 => some (.ldVxMemI (fieldX op))
  | _ => none

/-- The decoder: an instruction, or none where the word is illegal (R96, R97, R98, R102). It dispatches on `op[15:12]`. -/
def decode (op : Word) : Option Instr :=
  match (op.extractLsb' 12 4).toNat with
  | 0x0 => if op = 0x00E0#16 then some .cls else if op = 0x00EE#16 then some .ret else some (.sysNnn (fieldNnn op))
  | 0x1 => some (.jpNnn (fieldNnn op))
  | 0x2 => some (.callNnn (fieldNnn op))
  | 0x3 => some (.seVxKk (fieldX op) (fieldKk op))
  | 0x4 => some (.sneVxKk (fieldX op) (fieldKk op))
  | 0x5 => if fieldN op = 0#4 then some (.seVxVy (fieldX op) (fieldY op)) else none
  | 0x6 => some (.ldVxKk (fieldX op) (fieldKk op))
  | 0x7 => some (.addVxKk (fieldX op) (fieldKk op))
  | 0x8 => decode8 op
  | 0x9 => if fieldN op = 0#4 then some (.sneVxVy (fieldX op) (fieldY op)) else none
  | 0xA => some (.ldINnn (fieldNnn op))
  | 0xB => some (.jpV0Nnn (fieldNnn op))
  | 0xC => some (.rndVxKk (fieldX op) (fieldKk op))
  | 0xD => some (.drwVxVyN (fieldX op) (fieldY op) (fieldN op))
  | 0xE => decodeE op
  | 0xF => decodeF op
  | _ => none

/-- Why a run of bytes is no instruction. -/
inductive DecodeReject where
  /-- The word is one of the 17488 illegal words (R102). -/
  | illegalWord (op : Word)
  /-- There are fewer than two bytes, so no word (R90). -/
  | truncated
  deriving DecidableEq, Repr

/-- The word two bytes form, the first the more significant (R61). -/
def wordOfBytes (hi lo : Byte) : Word := (hi.setWidth 16 <<< 8) ||| lo.setWidth 16

/-- The decoder on bytes, total: the instruction and the bytes after it, or why there is none. -/
def decodeBytes (bytes : List Byte) : Except DecodeReject (Instr × List Byte) :=
  match bytes with
  | hi :: lo :: rest =>
    match decode (wordOfBytes hi lo) with
    | some i => .ok (i, rest)
    | none => .error (.illegalWord (wordOfBytes hi lo))
  | [_] => .error .truncated
  | [] => .error .truncated

/-- A word of format NNN: the digit `h`, then `nnn` (R91, R100). -/
def wordNnn (h : Nibble) (nnn : Addr) : Word := (h.setWidth 16 <<< 12) ||| nnn.setWidth 16

/-- A word of format XKK or X: the digit `h`, then `x`, then the low byte (R91, R100). -/
def wordXKk (h x : Nibble) (kk : Byte) : Word := (h.setWidth 16 <<< 12) ||| (x.setWidth 16 <<< 8) ||| kk.setWidth 16

/-- A word of format XY or XYN: the digit `h`, then `x`, then `y`, then the last digit (R91, R100). -/
def wordXYN (h x y n : Nibble) : Word :=
  (h.setWidth 16 <<< 12) ||| (x.setWidth 16 <<< 8) ||| (y.setWidth 16 <<< 4) ||| n.setWidth 16

/-- The encoder: the fields placed in the pattern of the row (R100). Its answer means something on a well-formed instruction:
`SYS 0x0E0` and `SYS 0x0EE` have no encoding of their own. -/
def encode (i : Instr) : Word :=
  match i with
  | .cls => 0x00E0#16
  | .ret => 0x00EE#16
  | .sysNnn nnn => wordNnn 0x0#4 nnn
  | .jpNnn nnn => wordNnn 0x1#4 nnn
  | .callNnn nnn => wordNnn 0x2#4 nnn
  | .seVxKk x kk => wordXKk 0x3#4 x kk
  | .sneVxKk x kk => wordXKk 0x4#4 x kk
  | .seVxVy x y => wordXYN 0x5#4 x y 0x0#4
  | .ldVxKk x kk => wordXKk 0x6#4 x kk
  | .addVxKk x kk => wordXKk 0x7#4 x kk
  | .ldVxVy x y => wordXYN 0x8#4 x y 0x0#4
  | .orVxVy x y => wordXYN 0x8#4 x y 0x1#4
  | .andVxVy x y => wordXYN 0x8#4 x y 0x2#4
  | .xorVxVy x y => wordXYN 0x8#4 x y 0x3#4
  | .addVxVy x y => wordXYN 0x8#4 x y 0x4#4
  | .subVxVy x y => wordXYN 0x8#4 x y 0x5#4
  | .shrVxVy x y => wordXYN 0x8#4 x y 0x6#4
  | .subnVxVy x y => wordXYN 0x8#4 x y 0x7#4
  | .shlVxVy x y => wordXYN 0x8#4 x y 0xE#4
  | .sneVxVy x y => wordXYN 0x9#4 x y 0x0#4
  | .ldINnn nnn => wordNnn 0xA#4 nnn
  | .jpV0Nnn nnn => wordNnn 0xB#4 nnn
  | .rndVxKk x kk => wordXKk 0xC#4 x kk
  | .drwVxVyN x y n => wordXYN 0xD#4 x y n
  | .skpVx x => wordXKk 0xE#4 x 0x9E#8
  | .sknpVx x => wordXKk 0xE#4 x 0xA1#8
  | .ldVxDt x => wordXKk 0xF#4 x 0x07#8
  | .ldVxK x => wordXKk 0xF#4 x 0x0A#8
  | .ldDtVx x => wordXKk 0xF#4 x 0x15#8
  | .ldStVx x => wordXKk 0xF#4 x 0x18#8
  | .addIVx x => wordXKk 0xF#4 x 0x1E#8
  | .ldFVx x => wordXKk 0xF#4 x 0x29#8
  | .ldBVx x => wordXKk 0xF#4 x 0x33#8
  | .ldMemIVx x => wordXKk 0xF#4 x 0x55#8
  | .ldVxMemI x => wordXKk 0xF#4 x 0x65#8

/-- The two bytes of an instruction, the more significant first (R61, R100). -/
def encodeBytes (i : Instr) : List Byte := [(encode i).extractLsb' 8 8, (encode i).extractLsb' 0 8]

/-- The row's mask and match (R95): a word `op` is of the row exactly when `op & mask = match`, but for the two words `SYS`
leaves to `CLS` and `RET`. -/
def Instr.maskMatch (i : Instr) : Word × Word :=
  match i with
  | .cls => (0xFFFF#16, 0x00E0#16)
  | .ret => (0xFFFF#16, 0x00EE#16)
  | .sysNnn _ => (0xF000#16, 0x0000#16)
  | .jpNnn _ => (0xF000#16, 0x1000#16)
  | .callNnn _ => (0xF000#16, 0x2000#16)
  | .seVxKk _ _ => (0xF000#16, 0x3000#16)
  | .sneVxKk _ _ => (0xF000#16, 0x4000#16)
  | .seVxVy _ _ => (0xF00F#16, 0x5000#16)
  | .ldVxKk _ _ => (0xF000#16, 0x6000#16)
  | .addVxKk _ _ => (0xF000#16, 0x7000#16)
  | .ldVxVy _ _ => (0xF00F#16, 0x8000#16)
  | .orVxVy _ _ => (0xF00F#16, 0x8001#16)
  | .andVxVy _ _ => (0xF00F#16, 0x8002#16)
  | .xorVxVy _ _ => (0xF00F#16, 0x8003#16)
  | .addVxVy _ _ => (0xF00F#16, 0x8004#16)
  | .subVxVy _ _ => (0xF00F#16, 0x8005#16)
  | .shrVxVy _ _ => (0xF00F#16, 0x8006#16)
  | .subnVxVy _ _ => (0xF00F#16, 0x8007#16)
  | .shlVxVy _ _ => (0xF00F#16, 0x800E#16)
  | .sneVxVy _ _ => (0xF00F#16, 0x9000#16)
  | .ldINnn _ => (0xF000#16, 0xA000#16)
  | .jpV0Nnn _ => (0xF000#16, 0xB000#16)
  | .rndVxKk _ _ => (0xF000#16, 0xC000#16)
  | .drwVxVyN _ _ _ => (0xF000#16, 0xD000#16)
  | .skpVx _ => (0xF0FF#16, 0xE09E#16)
  | .sknpVx _ => (0xF0FF#16, 0xE0A1#16)
  | .ldVxDt _ => (0xF0FF#16, 0xF007#16)
  | .ldVxK _ => (0xF0FF#16, 0xF00A#16)
  | .ldDtVx _ => (0xF0FF#16, 0xF015#16)
  | .ldStVx _ => (0xF0FF#16, 0xF018#16)
  | .addIVx _ => (0xF0FF#16, 0xF01E#16)
  | .ldFVx _ => (0xF0FF#16, 0xF029#16)
  | .ldBVx _ => (0xF0FF#16, 0xF033#16)
  | .ldMemIVx _ => (0xF0FF#16, 0xF055#16)
  | .ldVxMemI _ => (0xF0FF#16, 0xF065#16)

/-- The bytes of the instruction whose word is the low `nbits` bits of `w`, as memory holds them: the more significant byte at
the lower address (R61). Every instruction is one 16-bit word (R90). -/
def bytesOfTableWord (nbits w : Nat) : List Byte :=
  [(BitVec.ofNat 16 (w % 2 ^ nbits)).extractLsb' 8 8, (BitVec.ofNat 16 (w % 2 ^ nbits)).extractLsb' 0 8]

/-- What the decoder reads from the instruction whose bits are `w` in the numbering of spec/opcode_table.json. -/
def decodeTableWord (nbits w : Nat) : Option Instr :=
  match decodeBytes (bytesOfTableWord nbits w) with
  | .ok (i, _) => some i
  | .error _ => none

end Sys2Proof
end

