-- ==== Sys2Proof/Config.lean ====
section
/-! DEFINITION. What the implementation fixes and what is left free: the sizes of spec/00_scope.md R5, the default font of
spec/10_state.md R33, one turn of the host (spec/60_exceptions.md R267), and the free values of R6. -/

namespace Sys2Proof

/-- Bytes of memory, addresses 0x000 to 0xFFF (R5, R60). -/
abbrev Config.memSize : Nat := 4096

/-- Where the ROM is loaded and where the first instruction is fetched (R5, R22). -/
abbrev Config.romBase : Nat := 0x200

/-- The longest ROM, `4096 - 0x200` bytes (R5, R291). -/
abbrev Config.romMax : Nat := 3584

/-- Bytes of the font, which occupies 0x000 to 0x04F (R5, R32). -/
abbrev Config.fontLen : Nat := 80

/-- PRESUMED, UNSAFE (log entry 1): the widely published CHIP-8 font, the default of the parameter `FONT` (R33, D10). The spec
marks these bytes as general knowledge. `State.reset` starts from it; every claim about all states holds for every font. -/
def Config.defaultFont : Font := #v[
  0xF0#8, 0x90#8, 0x90#8, 0x90#8, 0xF0#8,  0x20#8, 0x60#8, 0x20#8, 0x20#8, 0x70#8,
  0xF0#8, 0x10#8, 0xF0#8, 0x80#8, 0xF0#8,  0xF0#8, 0x10#8, 0xF0#8, 0x10#8, 0xF0#8,
  0x90#8, 0x90#8, 0xF0#8, 0x10#8, 0x10#8,  0xF0#8, 0x80#8, 0xF0#8, 0x10#8, 0xF0#8,
  0xF0#8, 0x80#8, 0xF0#8, 0x90#8, 0xF0#8,  0xF0#8, 0x10#8, 0x20#8, 0x40#8, 0x40#8,
  0xF0#8, 0x90#8, 0xF0#8, 0x90#8, 0xF0#8,  0xF0#8, 0x90#8, 0xF0#8, 0x10#8, 0xF0#8,
  0xF0#8, 0x90#8, 0xF0#8, 0x90#8, 0x90#8,  0xE0#8, 0x90#8, 0xE0#8, 0x90#8, 0xE0#8,
  0xF0#8, 0x80#8, 0x80#8, 0x80#8, 0xF0#8,  0xE0#8, 0x90#8, 0x90#8, 0x90#8, 0xE0#8,
  0xF0#8, 0x80#8, 0xF0#8, 0x80#8, 0xF0#8,  0xF0#8, 0x80#8, 0xF0#8, 0x80#8, 0x80#8]

/-- What the host does between one STEP and the next (R267, R268, D16, D22): how many TICKs fall there, the keypad the next
step samples (bit `k` is key `k`, set when the key is down, R35), and the choice the next `LD Vx, K` makes among the keys that
are down (R233, D5). -/
structure HostTurn where
  ticks : Nat
  keypad : BitVec 16
  keyPick : Nat
  deriving DecidableEq, Repr, Inhabited

/-- FREE VALUE (log entry 5): what the host does at its `n`-th turn, where the state's script lays nothing down. Any number of
TICKs, any keypad, any choice (R233, R236, R268). -/
opaque Config.hostTurn (n : Nat) : HostTurn

/-- FREE VALUE (log entry 2): the byte the random source gives to the `n`-th `RND`, where the state lays nothing down (R172). -/
opaque Config.randomByte (n : Nat) : Byte

end Sys2Proof
end

