-- ==== Sys2Proof/Machine/State.lean ====
section
/-! DEFINITION. The state of the core (spec/10_state.md R20 to R41), the reasons a step stops (spec/60_exceptions.md R250 to
R256), and the state after RESET with an empty ROM (R39, spec/70_reset_and_hazards.md R292). -/

namespace Sys2Proof.Machine

/-- The runtime faults, each with the record R256 and R257 give it: the address `a` of the faulting instruction and its word
`op`. A fault is the spec's own outcome, distinct from a next state (R261): `State.halt` is the state it leaves (R257). -/
inductive Fault where
  /-- Raised by a STEP whose fetched word decodes to none (R250). Safe: the spec raises it there. -/
  | illegalInstruction (a : Addr) (op : Word)
  /-- Raised by `CALL` when `SP = 16` (R251). Safe: the spec raises it there. -/
  | stackOverflow (a : Addr) (op : Word)
  /-- Raised by `RET` when `SP = 0` (R252). Safe: the spec raises it there. -/
  | stackUnderflow (a : Addr) (op : Word)
  /-- Raised by `LD B, Vx`, `LD [I], Vx` and `LD Vx, [I]` when the last address would exceed 4095 (R253). Safe: the spec raises
  it there. -/
  | memoryFault (a : Addr) (op : Word)
  /-- Raised at fetch when `pc = 0xFFF` (then `op` is absent), by any instruction whose new `pc` would exceed 0xFFF, and by
  `CALL` whose return address would (R254). Safe: the source leaves these cases without a meaning (D3). -/
  | pcOutOfRange (a : Addr) (op : Option Word)
  /-- Raised by `SKP` and `SKNP` when `V[x] > 15` (R255). Safe: the source leaves this case without a meaning (D4). -/
  | keyIndexOutOfRange (a : Addr) (op : Word)
  deriving DecidableEq, Repr

/-- Why an event has no meaning. -/
inductive Refusal where
  /-- An instruction `exec` gives no meaning to, by the mnemonic of its row. No arm of this model answers with it. Safe. -/
  | notModelled (mnemonic : String)
  /-- A STEP or a TICK of a halted core: no STEP is possible there (R37, R260) and no effect of a TICK may be relied on (D21).
  Raised by `State.stepEvent` and `State.event`. Safe. -/
  | halted
  /-- RESET with a ROM of more than 3584 bytes, which the spec refuses (R294, D14). Raised by `State.resetEvent`. Safe. -/
  | romTooLong
  deriving DecidableEq, Repr

/-- Memory: the cells whose byte differs from what an unlisted address reads as, addresses strictly rising (R31, R60). -/
abbrev Memory := List Host.Cell

/-- The inputs of the core and the model's own bookkeeping of them. None of it is core state (R35, R36, R38): RESET leaves it
alone, and no instruction but `SKP`, `SKNP`, `LD Vx, K` and `RND` depends on it. -/
structure Env where
  /-- The keypad as the coming step samples it: bit `k` is set when key `k` is down (R35, R236). -/
  keypad : BitVec 16
  /-- The free choice of the coming `LD Vx, K` among the keys that are down (R233, D5). -/
  keyPick : Nat
  /-- The bytes the random source gives next, where they are laid down; after them each byte is free (R36, R172). -/
  rng : List Byte
  /-- How many bytes the random source has given: the index of the next free byte. -/
  draws : Nat
  /-- What the host does after each coming step, where it is laid down; after that each turn is free (R267, R268). -/
  script : List HostTurn
  /-- How many turns the host has had: the index of the next free turn. -/
  turns : Nat
  deriving DecidableEq, Repr

/-- The state: every piece the spec gives the core (R20 to R37), the parameter `FONT` (R33), and the inputs (R35, R36). -/
structure State where
  /-- The general registers `V[0]` to `V[15]`; `VF` is `V[15]` (R20, R21). -/
  v : Vector Byte 16
  /-- The address register `I`, a 16-bit cell (R24). -/
  i : Word
  /-- The program counter (R22). -/
  pc : Addr
  /-- The stack pointer, 0 to 16: how many return addresses the stack holds (R27). -/
  sp : Fin 17
  /-- The return stack (R26). -/
  stack : Vector Addr 16
  /-- The delay timer (R28). -/
  dt : Byte
  /-- The sound timer (R29). -/
  st : Byte
  /-- Memory (R31). -/
  mem : Memory
  /-- The framebuffer (R34). -/
  fb : Frame
  /-- Whether a fault has halted the core (R37). -/
  halted : Bool
  /-- The record of the fault that halted it (R37, R256). -/
  fault : Option Fault
  /-- The parameter `FONT`, which no event changes (R6, R33, D10). -/
  font : Font
  /-- The inputs: keypad, random source, and the host's turns (R35, R36, R267). -/
  env : Env
  deriving DecidableEq, Repr

/-- The state RESET leaves with an empty ROM (R39, R292). The font is the default of R33 (PRESUMED, log entry 1) and the inputs
are values the model names (DESIGN CHOICE, UNSAFE, log entries 2 to 5): the spec gives them no reset value. -/
def State.reset : State where
  v := Vector.replicate 16 0#8
  i := 0#16
  pc := 0x200#12
  sp := 0
  stack := Vector.replicate 16 0#12
  dt := 0#8
  st := 0#8
  mem := []
  fb := Vector.replicate 32 0#64
  halted := false
  fault := none
  font := Config.defaultFont
  env := { keypad := 0#16, keyPick := 0, rng := [], draws := 0, script := [], turns := 0 }

end Sys2Proof.Machine
end

