-- ==== Sys2Proof/Machine/Ops.lean ====
section
/-! DEFINITION. The named operations over memory, registers, stack, framebuffer, inputs and `pc`; fault entry and the one way out
of it, RESET; TICK and the host's turn. -/

namespace Sys2Proof.Machine

/-! ### Memory (spec/20_memory.md) -/

/-- What an address that memory does not list reads as: the reset contents with an empty ROM, the font at 0x000 to 0x04F and
zero elsewhere (R31, R39). -/
def Memory.unlisted (font : Font) (a : Nat) : Byte := if h : a < Config.fontLen then font[a] else 0#8

/-- The byte of memory `m` at address `a` (R66). -/
def Memory.read (font : Font) (m : Memory) (a : Nat) : Byte :=
  match m with
  | [] => Memory.unlisted font a
  | c :: cs => if c.1 = a then c.2 else Memory.read font cs a

/-- Memory `m` with the cell `(a, b)` put in before the first larger address. -/
def Memory.insert (m : Memory) (a : Nat) (b : Byte) : Memory :=
  match m with
  | [] => [(a, b)]
  | c :: cs => if a < c.1 then (a, b) :: c :: cs else c :: Memory.insert cs a b

/-- Memory `m` after the byte `b` is written at `a`, in canonical form: a byte that an unlisted address would read as is not
listed (R66). -/
def Memory.write (font : Font) (m : Memory) (a : Nat) (b : Byte) : Memory :=
  if b = Memory.unlisted font a then m.filter (fun c => c.1 != a)
  else Memory.insert (m.filter (fun c => c.1 != a)) a b

/-- The canonical form: addresses strictly rising, all inside memory, no cell equal to what its address would read as unlisted. -/
def Memory.wf (font : Font) (m : Memory) : Bool :=
  match m with
  | [] => true
  | c :: cs =>
    decide (c.1 < Config.memSize) && c.2 != Memory.unlisted font c.1 && cs.all (fun d => decide (c.1 < d.1)) &&
      Memory.wf font cs

/-- `MemRead(a, 1)` (R11, R64). -/
def State.readByte (s : State) (a : Addr) : Byte := Memory.read s.font s.mem a.toNat

/-- `MemWrite(a, 1, b)` (R11, R64). -/
def State.writeByte (s : State) (a : Addr) (b : Byte) : State :=
  { s with mem := Memory.write s.font s.mem a.toNat b }

/-- One-byte writes at consecutive addresses from `base` up (R62, R64). -/
def State.writeBytes (s : State) (base : Nat) (bs : List Byte) : State :=
  match bs with
  | [] => s
  | b :: rest => (s.writeByte (BitVec.ofNat 12 base) b).writeBytes (base + 1) rest

/-- The word at `pc`, big-endian (R61). -/
def State.fetchWord (s : State) : Word := wordOfBytes (s.readByte s.pc) (s.readByte (s.pc + 1#12))

/-! ### Registers and stack (spec/10_state.md) -/

/-- `V[x]` (R20). -/
def State.getV (s : State) (x : Nibble) : Byte := s.v[x.toNat]'x.isLt

/-- `V[x] <- b` (R20). -/
def State.setV (s : State) (x : Nibble) (b : Byte) : State := { s with v := s.v.set x.toNat b x.isLt }

/-- The register `VF`, which is `V[15]` (R21). -/
abbrev vf : Nibble := 0xF#4

/-- All sixteen registers at once, as `LD Vx, [I]` leaves them (R195). -/
def State.setRegs (s : State) (v : Vector Byte 16) : State := { s with v := v }

/-- `pc <- a` (R22). -/
def State.setPc (s : State) (a : Addr) : State := { s with pc := a }

/-- `SP <- n` (R27). -/
def State.setSp (s : State) (n : Fin 17) : State := { s with sp := n }

/-- `stack[k] <- r` (R26). -/
def State.setStack (s : State) (k : Fin 16) (r : Addr) : State := { s with stack := s.stack.set k.val r k.isLt }

/-- `I <- w` (R24). -/
def State.setI (s : State) (w : Word) : State := { s with i := w }

/-- `DT <- b` (R28). -/
def State.setDt (s : State) (b : Byte) : State := { s with dt := b }

/-- `ST <- b` (R29). -/
def State.setSt (s : State) (b : Byte) : State := { s with st := b }

/-- `fb <- f` (R34). -/
def State.setFb (s : State) (f : Frame) : State := { s with fb := f }

/-- The state with the return address `r` pushed, or none when the stack is full: `stack[SP] <- r; SP <- SP + 1` (R26, R27). -/
def State.push (s : State) (r : Addr) : Option State :=
  if h : s.sp.val < 16 then
    some ((s.setStack ⟨s.sp.val, h⟩ r).setSp ⟨s.sp.val + 1, Nat.succ_lt_succ h⟩)
  else none

/-- The state with the top entry popped and that entry, or none when the stack is empty: `SP <- SP - 1`, and the entry at the
new `SP`, which stays in the stack (R26, R131). -/
def State.pop (s : State) : Option (State × Addr) :=
  match s.sp with
  | ⟨0, _⟩ => none
  | ⟨n + 1, h⟩ => some (s.setSp ⟨n, Nat.lt_of_succ_lt h⟩, s.stack[n]'(Nat.lt_of_succ_lt_succ h))

/-! ### Framebuffer (spec/43_display.md) -/

/-- `fb[x, y]`: bit `64 * y + x` of the row-major array, that is bit `x` of row `y`; false off the screen (R34, R211). -/
def pixelAt (fb : Frame) (x y : Nat) : Bool := if h : y < 32 then fb[y].getLsbD x else false

/-- The host's read of the framebuffer between steps, column `x` and row `y` (R41, R274). -/
def State.pixel (s : State) (x y : Nat) : Bool := pixelAt s.fb x y

/-- `Display::xor_pixel`: the framebuffer with the bit at column `x` and row `y` inverted, and whether it was set (R213). -/
def xorPixel (fb : Frame) (x y : Nat) : Frame × Bool :=
  (if h : y < 32 then fb.set y (fb[y] ^^^ BitVec.twoPow 64 x) h else fb, pixelAt fb x y)

/-! ### Inputs (spec/10_state.md R35, R36; spec/44_keypad_timers.md R236) -/

/-- `key[k]` for `k` in 0 to 15, as the step samples it (R236). -/
def keyDown (keypad : BitVec 16) (k : Nat) : Bool := keypad.getLsbD k

/-- The byte the random source gives to the next `RND`: what is laid down, else a free value (R172; FREE VALUE, log entry 2). -/
def State.nextRandom (s : State) : Byte :=
  match s.env.rng with
  | b :: _ => b
  | [] => Config.randomByte s.env.draws

/-- The random source after it has given one byte (R172, R273). -/
def State.takeRandom (s : State) : State :=
  { s with env := { s.env with rng := s.env.rng.tail, draws := s.env.draws + 1 } }

/-! ### Faults (spec/60_exceptions.md) -/

/-- An outcome with its next state, if it has one, changed by `f`; a fault and a refusal stand. -/
def mapNext (f : State → State) (o : Host.Outcome State Fault Refusal) : Host.Outcome State Fault Refusal :=
  match o with
  | .next t => .next (f t)
  | .fault r => .fault r
  | .refused r => .refused r

/-- `raise`: the step ends with the fault `kind` of the instruction at `pc` whose word is `op`; no write of the step takes effect
(R11, R257). -/
def raise (kind : Addr → Word → Fault) (op : Word) (s : State) : Host.Outcome State Fault Refusal :=
  .fault (kind s.pc op)

/-- The fault `PcOutOfRange` as an instruction raises it, its word recorded (R254). -/
def Fault.pcOutOfRangeAt (a : Addr) (op : Word) : Fault := .pcOutOfRange a (some op)

/-- The end of every instruction: `pc <- new`, or the fault `PcOutOfRange` when `new` exceeds 0xFFF, and then none of the
instruction's writes take effect (R13, R254). `s` is the state with the instruction's other writes made, its `pc` still the
address of the instruction. -/
def jump (op : Word) (new : Nat) (s : State) : Host.Outcome State Fault Refusal :=
  if new ≤ 0xFFF then .next (s.setPc (BitVec.ofNat 12 new)) else raise Fault.pcOutOfRangeAt op s

/-- A sequential instruction: `pc <- a + 2` (R23). -/
def advance (op : Word) (s : State) : Host.Outcome State Fault Refusal := jump op (s.pc.toNat + 2) s

/-- A skip: `pc <- a + 4` if the condition holds, else `a + 2` (R23, R139). The word skipped is neither fetched nor decoded. -/
def skipIf (op : Word) (cond : Bool) (s : State) : Host.Outcome State Fault Refusal :=
  jump op (s.pc.toNat + if cond then 4 else 2) s

/-- The code of a fault kind (R256). -/
def Fault.code (f : Fault) : Nat :=
  match f with
  | .illegalInstruction _ _ => 1
  | .stackOverflow _ _ => 2
  | .stackUnderflow _ _ => 3
  | .memoryFault _ _ => 4
  | .pcOutOfRange _ _ => 5
  | .keyIndexOutOfRange _ _ => 6

/-- `fault.a`: the address of the faulting instruction (R37). -/
def Fault.addr (f : Fault) : Addr :=
  match f with
  | .illegalInstruction a _ => a
  | .stackOverflow a _ => a
  | .stackUnderflow a _ => a
  | .memoryFault a _ => a
  | .pcOutOfRange a _ => a
  | .keyIndexOutOfRange a _ => a

/-- `fault.op`: the word of the faulting instruction, absent when the fetch itself could not be completed (R37). -/
def Fault.word (f : Fault) : Option Word :=
  match f with
  | .illegalInstruction _ op => some op
  | .stackOverflow _ op => some op
  | .stackUnderflow _ op => some op
  | .memoryFault _ op => some op
  | .pcOutOfRange _ op => op
  | .keyIndexOutOfRange _ op => some op

/-- Fault entry: `halted <- true`, `fault <- f`, and nothing else (R257). -/
def State.halt (s : State) (f : Fault) : State := { s with halted := true, fault := some f }

/-- The state an event leaves a core that was in state `s`: the next state, fault entry, or no change where the event was
refused (R257, R260). -/
def State.settle (s : State) (o : Host.Outcome State Fault Refusal) : State :=
  match o with
  | .next t => t
  | .fault f => s.halt f
  | .refused _ => s

/-- RESET(rom), the one way out of a halted core (R260, R290, R292): every piece of core state is built anew, the ROM stands from
0x200 up, and the parameter `FONT` and the inputs are as they were (R39). A ROM of more than 3584 bytes is refused (R294). -/
def State.resetEvent (s : State) (rom : List Byte) : Host.Outcome State Fault Refusal :=
  if rom.length ≤ Config.romMax then
    .next (({ State.reset with font := s.font, env := s.env } : State).writeBytes Config.romBase rom)
  else .refused .romTooLong

/-! ### Timers and the host's turn (spec/60_exceptions.md R267, R268) -/

/-- A timer after `n` TICKs: decremented by one each, saturating at 0 (R268). -/
def tickDown (n : Nat) (t : Byte) : Byte := BitVec.ofNat 8 (t.toNat - n)

/-- The TICK event: `DT` and `ST` decremented while nonzero, nothing else changed (R268). -/
def State.tick (s : State) : State := { s with dt := tickDown 1 s.dt, st := tickDown 1 s.st }

/-- The free choice of the coming `LD Vx, K` among the keys that are down (R233, D5; DESIGN CHOICE, log entry 4). -/
def State.setKeyPick (s : State) (pick : Nat) : State := { s with env := { s.env with keyPick := pick } }

/-- The sound predicate: whether a tone is heard. PRESUMED (log entry 20): the CHIP-8 convention `ST > 0`, general knowledge that
R275 lets a model expose under that label; nothing in the core depends on it. -/
def State.soundOn (s : State) : Bool := decide (0 < s.st.toNat)

/-- The keypad change event: what later samples return (R262, R267). It leaves the free choice of `LD Vx, K` alone: each STEP brings
its own (log entry 4). -/
def State.setKeypad (s : State) (keys : BitVec 16) : State := { s with env := { s.env with keypad := keys } }

/-- What the host does before the next STEP: what the script lays down, else a free value (R267; FREE VALUE, log entry 5). -/
def State.nextTurn (s : State) : HostTurn :=
  match s.env.script with
  | h :: _ => h
  | [] => Config.hostTurn s.env.turns

/-- The host's turn between two STEPs: its TICKs fall and the keypad becomes what the next step samples (R236, R267, R268). -/
def State.hostTurn (s : State) : State :=
  { s with
    dt := tickDown s.nextTurn.ticks s.dt
    st := tickDown s.nextTurn.ticks s.st
    env :=
      { s.env with
        keypad := s.nextTurn.keypad
        keyPick := s.nextTurn.keyPick
        script := s.env.script.tail
        turns := s.env.turns + 1 } }

/-! ### Placing an instruction where the next STEP fetches it -/

/-- The two bytes of a word of the opcode table written at `pc` and `pc + 1`. -/
def State.placeWord (s : State) (nbits w : Nat) : State := s.writeBytes s.pc.toNat (bytesOfTableWord nbits w)

end Sys2Proof.Machine
end

