-- ==== Sys2Proof/Machine/Flags.lean ====
section
/-! DEFINITION. The values `VF` receives (spec/10_state.md R21): each flag is 0 or 1, computed from operands read before any
write (spec/41_alu.md R166). -/

namespace Sys2Proof.Machine

/-- A flag as the byte `VF` receives (R21). -/
def flagByte (f : Bool) : Byte := if f then 1#8 else 0#8

/-- `ADD Vx, Vy`: whether the 9-bit sum exceeds 255 (R167). -/
def carryFlag (a b : Byte) : Byte := flagByte (decide (255 < a.toNat + b.toNat))

/-- `SUB` and `SUBN`: 1 when minuend ≥ subtrahend, that is when there is no borrow (R168, R170). -/
def noBorrowFlag (minuend subtrahend : Byte) : Byte := flagByte (decide (subtrahend.toNat ≤ minuend.toNat))

/-- `SHR`: the bit shifted out, old bit 0 (R169). -/
def shrFlag (a : Byte) : Byte := flagByte (a.getLsbD 0)

/-- `SHL`: the bit shifted out, old bit 7 (R171). -/
def shlFlag (a : Byte) : Byte := flagByte (a.getLsbD 7)

/-- `DRW`: whether a lit pixel was turned off (R214). -/
def collisionFlag (hit : Bool) : Byte := flagByte hit

/-- The end of the flag-writing instructions: `V[x] <- r`, then `VF <- f`, which is written last, then `pc <- a + 2` (R166). -/
def writeResultAndFlag (op : Word) (x : Nibble) (r f : Byte) (s : State) : Host.Outcome State Fault Refusal :=
  advance op ((s.setV x r).setV vf f)

end Sys2Proof.Machine
end

