-- ==== Sys2Proof/Machine/Operands.lean ====
section
/-! DEFINITION. What the operand forms name: memory through `I` (spec/42_index_memory.md R196), the font lookup `F` (R192), the
BCD digits `B` (R193), the key operand `K` (spec/44_keypad_timers.md R233), and the sprite of `DRW` (spec/43_display.md R212). -/

namespace Sys2Proof.Machine

/-- `F`: the address of the glyph of the low digit of `v`, `FONT_BASE + 5 * d` (R32, R192). -/
def glyphAddr (v : Byte) : Word := BitVec.ofNat 16 (5 * (v.toNat % 16))

/-- `B`: the hundreds, tens and ones of `v`, the hundreds first (R62, R193). -/
def bcdDigits (v : Byte) : List Byte :=
  [BitVec.ofNat 8 (v.toNat / 100), BitVec.ofNat 8 (v.toNat / 10 % 10), BitVec.ofNat 8 (v.toNat % 10)]

/-- `[I]`: the address `I + k` of the `k`-th byte of a transfer, meant where `I + k ≤ 4095` (R196). -/
def memIAddr (s : State) (k : Nat) : Addr := BitVec.ofNat 12 (s.i.toNat + k)

/-- A transfer through `[I]` whose last offset is `k`: `MemoryFault` when `I + k > 4095`, checked once and before any byte moves;
else what the instruction does (R69, R253). -/
def checkedThroughI (op : Word) (k : Nat) (s : State) (run : State → Host.Outcome State Fault Refusal) :
    Host.Outcome State Fault Refusal :=
  if s.i.toNat + k ≤ 4095 then run s else raise Fault.memoryFault op s

/-- The registers `V[0]` to `V[x]` in order, as `LD [I], Vx` stores them (R194). -/
def regsUpTo (s : State) (x : Nibble) : List Byte :=
  (List.range (x.toNat + 1)).map (fun k => s.getV (BitVec.ofNat 4 k))

/-- The registers after `LD Vx, [I]`: `V[k]` is the byte at `I + k` for `k` up to `x`, the others as they were (R195). -/
def loadedRegs (s : State) (x : Nibble) : Vector Byte 16 :=
  Vector.ofFn (fun k : Fin 16 => if k.val ≤ x.toNat then s.readByte (memIAddr s k.val) else s.v[k.val])

/-- `K`: the indices of the keys that are down, in order (R233). -/
def keysDown (keypad : BitVec 16) : List Nat := (List.range 16).filter (keyDown keypad)

/-- The key `LD Vx, K` returns, or none when no key is down: an element of the keys down that the free choice `pick` selects, and
every one of them is selected by some `pick` (R233, D5; FREE VALUE, log entry 4). -/
def chosenKey (keypad : BitVec 16) (pick : Nat) : Option Nat := (keysDown keypad)[pick % (keysDown keypad).length]?

/-- Row `r` of the sprite at `I`: the byte at `(I + r) mod 4096`; the read wraps and never faults (R70, R212). -/
def spriteRow (s : State) (r : Nat) : Byte := s.readByte (BitVec.ofNat 12 (s.i.toNat + r))

/-- Pixel `b` of a sprite row, left to right: `(byte >> (7 - b)) & 1` (R212). -/
def spriteBit (row : Byte) (b : Nat) : Bool := row.getLsbD (7 - b)

end Sys2Proof.Machine
end

