-- ==== Sys2Proof/Machine/Alu.lean ====
section
/-! DEFINITION. The register and arithmetic instructions (spec/41_alu.md R160 to R173). All are sequential. -/

namespace Sys2Proof.Machine

/-- `LD Vx, kk`: `V[x] <- kk` (R160). -/
def execLdVxKk (x : Nibble) (kk : Byte) (s : State) : Host.Outcome State Fault Refusal :=
  advance (encode (.ldVxKk x kk)) (s.setV x kk)

/-- `ADD Vx, kk`: `V[x] <- (V[x] + kk) mod 256`, no flag (R161). -/
def execAddVxKk (x : Nibble) (kk : Byte) (s : State) : Host.Outcome State Fault Refusal :=
  advance (encode (.addVxKk x kk)) (s.setV x (s.getV x + kk))

/-- `LD Vx, Vy`: `V[x] <- V[y]` (R162). -/
def execLdVxVy (x y : Nibble) (s : State) : Host.Outcome State Fault Refusal :=
  advance (encode (.ldVxVy x y)) (s.setV x (s.getV y))

/-- `OR Vx, Vy`: bitwise or, no flag (R163). -/
def execOrVxVy (x y : Nibble) (s : State) : Host.Outcome State Fault Refusal :=
  advance (encode (.orVxVy x y)) (s.setV x (s.getV x ||| s.getV y))

/-- `AND Vx, Vy`: bitwise and, no flag (R164). -/
def execAndVxVy (x y : Nibble) (s : State) : Host.Outcome State Fault Refusal :=
  advance (encode (.andVxVy x y)) (s.setV x (s.getV x &&& s.getV y))

/-- `XOR Vx, Vy`: bitwise exclusive or, no flag (R165). -/
def execXorVxVy (x y : Nibble) (s : State) : Host.Outcome State Fault Refusal :=
  advance (encode (.xorVxVy x y)) (s.setV x (s.getV x ^^^ s.getV y))

/-- `ADD Vx, Vy`: `V[x] <- (V[x] + V[y]) mod 256`, then `VF <- carry` (R167). -/
def execAddVxVy (x y : Nibble) (s : State) : Host.Outcome State Fault Refusal :=
  writeResultAndFlag (encode (.addVxVy x y)) x (s.getV x + s.getV y) (carryFlag (s.getV x) (s.getV y)) s

/-- `SUB Vx, Vy`: `V[x] <- (V[x] - V[y]) mod 256`, then `VF <- no borrow` (R168). -/
def execSubVxVy (x y : Nibble) (s : State) : Host.Outcome State Fault Refusal :=
  writeResultAndFlag (encode (.subVxVy x y)) x (s.getV x - s.getV y) (noBorrowFlag (s.getV x) (s.getV y)) s

/-- `SHR Vx{, Vy}`: in place, `V[x] <- V[x] >> 1`, then `VF <- old bit 0`; `y` is not used (R105, R169). -/
def execShrVxVy (x y : Nibble) (s : State) : Host.Outcome State Fault Refusal :=
  writeResultAndFlag (encode (.shrVxVy x y)) x (s.getV x >>> 1) (shrFlag (s.getV x)) s

/-- `SUBN Vx, Vy`: `V[x] <- (V[y] - V[x]) mod 256`, then `VF <- no borrow` (R170). -/
def execSubnVxVy (x y : Nibble) (s : State) : Host.Outcome State Fault Refusal :=
  writeResultAndFlag (encode (.subnVxVy x y)) x (s.getV y - s.getV x) (noBorrowFlag (s.getV y) (s.getV x)) s

/-- `SHL Vx{, Vy}`: in place, `V[x] <- (V[x] << 1) mod 256`, then `VF <- old bit 7`; `y` is not used (R105, R171). -/
def execShlVxVy (x y : Nibble) (s : State) : Host.Outcome State Fault Refusal :=
  writeResultAndFlag (encode (.shlVxVy x y)) x (s.getV x <<< 1) (shlFlag (s.getV x)) s

/-- `RND Vx, kk`: `V[x] <- b & kk` for the one byte `b` the random source gives (R172). -/
def execRndVxKk (x : Nibble) (kk : Byte) (s : State) : Host.Outcome State Fault Refusal :=
  advance (encode (.rndVxKk x kk)) (s.takeRandom.setV x (s.nextRandom &&& kk))

end Sys2Proof.Machine
end

