-- ==== Sys2Proof/Machine/Display.lean ====
section
/-! DEFINITION. The display instructions and the sprite rasterizer (spec/43_display.md R210 to R216). Both are sequential. -/

namespace Sys2Proof.Machine

/-- `CLS`: every framebuffer bit 0 (R210). -/
def execCls (s : State) : Host.Outcome State Fault Refusal :=
  advance (encode .cls) (s.setFb (Vector.replicate 32 0#64))

/-- One pixel of a sprite row onto column `x` and row `y`: a pixel past the right edge is skipped, a pixel that is 0 leaves the
framebuffer alone, a lit one inverts the bit and reports whether it was set (R213, R214). The pair is the framebuffer and
whether a lit pixel has been turned off so far. -/
def drawPixel (lit : Bool) (x y : Nat) (acc : Frame × Bool) : Frame × Bool :=
  if 64 ≤ x then acc
  else if lit then ((xorPixel acc.1 x y).1, acc.2 || (xorPixel acc.1 x y).2)
  else acc

/-- One sprite row at column `x0` and row `y`, pixels left to right (R214). -/
def drawRow (row : Byte) (x0 y : Nat) (acc : Frame × Bool) : Frame × Bool :=
  (List.range 8).foldl (fun acc b => drawPixel (spriteBit row b) (x0 + b) y acc) acc

/-- The sprite of `n` rows at `I` onto column `x0` and row `y0`, rows top down; a row past the bottom edge is not read, and
neither is any after it (R214). -/
def drawSprite (s : State) (x0 y0 n : Nat) : Frame × Bool :=
  (List.range n).foldl (fun acc r => if 32 ≤ y0 + r then acc else drawRow (spriteRow s r) x0 (y0 + r) acc) (s.fb, false)

/-- The column of the sprite origin, `V[x] mod 64` (R214). -/
def originX (s : State) (x : Nibble) : Nat := (s.getV x).toNat % 64

/-- The row of the sprite origin, `V[y] mod 32` (R214). -/
def originY (s : State) (y : Nibble) : Nat := (s.getV y).toNat % 32

/-- `DRW Vx, Vy, n`: exclusive-or the sprite at `I` onto the framebuffer, then `VF <- 1` if a lit pixel was turned off, else 0; the
coordinates are read before `VF` is written (R12, R214). -/
def execDrwVxVyN (x y n : Nibble) (s : State) : Host.Outcome State Fault Refusal :=
  advance (encode (.drwVxVyN x y n))
    ((s.setFb (drawSprite s (originX s x) (originY s y) n.toNat).1).setV vf
      (collisionFlag (drawSprite s (originX s x) (originY s y) n.toNat).2))

end Sys2Proof.Machine
end

