-- ==== Sys2Proof/Machine/Flow.lean ====
section
/-! DEFINITION. The control flow instructions (spec/40_flow.md R130 to R139). -/

namespace Sys2Proof.Machine

/-- `SYS nnn`: a no-op, `nnn` unused (R130). -/
def execSysNnn (nnn : Addr) (s : State) : Host.Outcome State Fault Refusal :=
  advance (encode (.sysNnn nnn)) s

/-- `RET`: `StackUnderflow` when `SP = 0`, else `SP <- SP - 1; pc <- stack[SP]` (R131). -/
def execRet (s : State) : Host.Outcome State Fault Refusal :=
  match s.pop with
  | none => raise .stackUnderflow (encode .ret) s
  | some (t, r) => jump (encode .ret) r.toNat t

/-- `JP nnn`: `pc <- nnn` (R132). -/
def execJpNnn (nnn : Addr) (s : State) : Host.Outcome State Fault Refusal :=
  jump (encode (.jpNnn nnn)) nnn.toNat s

/-- `CALL nnn`: `StackOverflow` when `SP = 16`; then `PcOutOfRange` when the return address `a + 2` exceeds 0xFFF; else
`stack[SP] <- a + 2; SP <- SP + 1; pc <- nnn` (R133, R259). -/
def execCallNnn (nnn : Addr) (s : State) : Host.Outcome State Fault Refusal :=
  match s.push (BitVec.ofNat 12 (s.pc.toNat + 2)) with
  | none => raise .stackOverflow (encode (.callNnn nnn)) s
  | some t =>
    if s.pc.toNat + 2 ≤ 0xFFF then jump (encode (.callNnn nnn)) nnn.toNat t
    else raise Fault.pcOutOfRangeAt (encode (.callNnn nnn)) s

/-- `SE Vx, kk`: skip if `V[x] = kk` (R134). -/
def execSeVxKk (x : Nibble) (kk : Byte) (s : State) : Host.Outcome State Fault Refusal :=
  skipIf (encode (.seVxKk x kk)) (s.getV x == kk) s

/-- `SNE Vx, kk`: skip if `V[x] ≠ kk` (R135). -/
def execSneVxKk (x : Nibble) (kk : Byte) (s : State) : Host.Outcome State Fault Refusal :=
  skipIf (encode (.sneVxKk x kk)) (s.getV x != kk) s

/-- `SE Vx, Vy`: skip if `V[x] = V[y]` (R136). -/
def execSeVxVy (x y : Nibble) (s : State) : Host.Outcome State Fault Refusal :=
  skipIf (encode (.seVxVy x y)) (s.getV x == s.getV y) s

/-- `SNE Vx, Vy`: skip if `V[x] ≠ V[y]` (R137). -/
def execSneVxVy (x y : Nibble) (s : State) : Host.Outcome State Fault Refusal :=
  skipIf (encode (.sneVxVy x y)) (s.getV x != s.getV y) s

/-- `JP V0, nnn`: `pc <- nnn + V[0]`, a sum that does not wrap (R138). -/
def execJpV0Nnn (nnn : Addr) (s : State) : Host.Outcome State Fault Refusal :=
  jump (encode (.jpV0Nnn nnn)) (nnn.toNat + (s.getV 0#4).toNat) s

end Sys2Proof.Machine
end

