-- ==== Sys2Proof/Machine/IndexMemory.lean ====
section
/-! DEFINITION. The address register and memory instructions (spec/42_index_memory.md R190 to R196). All are sequential. -/

namespace Sys2Proof.Machine

/-- `LD I, nnn`: `I <- nnn` (R190). -/
def execLdINnn (nnn : Addr) (s : State) : Host.Outcome State Fault Refusal :=
  advance (encode (.ldINnn nnn)) (s.setI (BitVec.ofNat 16 nnn.toNat))

/-- `ADD I, Vx`: `I <- (I + V[x]) mod 65536`, no flag and no fault of its own (R191, C1). -/
def execAddIVx (x : Nibble) (s : State) : Host.Outcome State Fault Refusal :=
  advance (encode (.addIVx x)) (s.setI (BitVec.ofNat 16 (s.i.toNat + (s.getV x).toNat)))

/-- `LD F, Vx`: `I` <- the address of the glyph of the low digit of `V[x]` (R192). -/
def execLdFVx (x : Nibble) (s : State) : Host.Outcome State Fault Refusal :=
  advance (encode (.ldFVx x)) (s.setI (glyphAddr (s.getV x)))

/-- `LD B, Vx`: the three BCD digits of `V[x]` at `I`, `I + 1`, `I + 2`; `MemoryFault` when `I + 2 > 4095` (R193). -/
def execLdBVx (x : Nibble) (s : State) : Host.Outcome State Fault Refusal :=
  checkedThroughI (encode (.ldBVx x)) 2 s fun s =>
    advance (encode (.ldBVx x)) (s.writeBytes s.i.toNat (bcdDigits (s.getV x)))

/-- `LD [I], Vx`: `V[0]` to `V[x]` at `I` to `I + x`, `I` not advanced; `MemoryFault` when `I + x > 4095` (R194). -/
def execLdMemIVx (x : Nibble) (s : State) : Host.Outcome State Fault Refusal :=
  checkedThroughI (encode (.ldMemIVx x)) x.toNat s fun s =>
    advance (encode (.ldMemIVx x)) (s.writeBytes s.i.toNat (regsUpTo s x))

/-- `LD Vx, [I]`: `V[0]` to `V[x]` from `I` to `I + x`, `I` not advanced; `MemoryFault` when `I + x > 4095` (R195). -/
def execLdVxMemI (x : Nibble) (s : State) : Host.Outcome State Fault Refusal :=
  checkedThroughI (encode (.ldVxMemI x)) x.toNat s fun s =>
    advance (encode (.ldVxMemI x)) (s.setRegs (loadedRegs s x))

end Sys2Proof.Machine
end

