-- ==== Sys2Proof/Machine/KeypadTimers.lean ====
section
/-! DEFINITION. The keypad and timer instructions (spec/44_keypad_timers.md R230 to R236). -/

namespace Sys2Proof.Machine

/-- A skip on the key `V[x]`, down or up as `want` says: `KeyIndexOutOfRange` when `V[x] > 15` (R230, R231, R255). -/
def skipIfKey (op : Word) (x : Nibble) (want : Bool) (s : State) : Host.Outcome State Fault Refusal :=
  if (s.getV x).toNat ≤ 15 then skipIf op (keyDown s.env.keypad (s.getV x).toNat == want) s
  else raise .keyIndexOutOfRange op s

/-- `SKP Vx`: skip if key `V[x]` is down (R230). -/
def execSkpVx (x : Nibble) (s : State) : Host.Outcome State Fault Refusal :=
  skipIfKey (encode (.skpVx x)) x true s

/-- `SKNP Vx`: skip if key `V[x]` is not down (R231). -/
def execSknpVx (x : Nibble) (s : State) : Host.Outcome State Fault Refusal :=
  skipIfKey (encode (.sknpVx x)) x false s

/-- `LD Vx, DT`: `V[x] <- DT` (R232). -/
def execLdVxDt (x : Nibble) (s : State) : Host.Outcome State Fault Refusal :=
  advance (encode (.ldVxDt x)) (s.setV x s.dt)

/-- `LD Vx, K`: while no key is down the step changes nothing and `pc` stays; else `V[x]` is a key that is down (R233). -/
def execLdVxK (x : Nibble) (s : State) : Host.Outcome State Fault Refusal :=
  match chosenKey s.env.keypad s.env.keyPick with
  | none => jump (encode (.ldVxK x)) s.pc.toNat s
  | some k => advance (encode (.ldVxK x)) (s.setV x (BitVec.ofNat 8 k))

/-- `LD DT, Vx`: `DT <- V[x]` (R234). -/
def execLdDtVx (x : Nibble) (s : State) : Host.Outcome State Fault Refusal :=
  advance (encode (.ldDtVx x)) (s.setDt (s.getV x))

/-- `LD ST, Vx`: `ST <- V[x]` (R235). -/
def execLdStVx (x : Nibble) (s : State) : Host.Outcome State Fault Refusal :=
  advance (encode (.ldStVx x)) (s.setSt (s.getV x))

end Sys2Proof.Machine
end

