-- ==== Sys2Proof/Machine/Cycle.lean ====
section
/-! DEFINITION. The STEP event (spec/00_scope.md R13), the step of the host's interface, and the events that change the core
(spec/60_exceptions.md R267). -/

namespace Sys2Proof.Machine

/-- Fetch: the word at `pc`, or the fault `PcOutOfRange` with no word when the second byte would be at address 4096 (R71, R254). -/
def State.fetch (s : State) : Except Fault Word :=
  if s.pc.toNat ≤ 0xFFE then .ok s.fetchWord else .error (.pcOutOfRange s.pc none)

/-- STEP: fetch, decode, execute, in that order (R13, R259). A halted core executes no STEP (R37, R260). -/
def State.stepEvent (s : State) : Host.Outcome State Fault Refusal :=
  if s.halted then .refused .halted
  else
    match s.fetch with
    | .error f => .fault f
    | .ok op =>
      match decode op with
      | none => raise .illegalInstruction op s
      | some i => exec i s

/-- One STEP and, where it leaves a next state, the host's turn before the next one (R267, R268). -/
def State.cycle (s : State) : Host.Outcome State Fault Refusal :=
  mapNext State.hostTurn s.stepEvent

/-- The events that change the core (R267). The host's framebuffer read has no effect on it: `State.pixel`. A STEP carries the free
choice that a `LD Vx, K` executed by it makes among the keys down, any number, so that in a run of separate events each STEP
chooses afresh (R233, D5; DESIGN CHOICE, log entry 4). -/
inductive Event where
  | reset (rom : List Byte)
  | step (pick : Nat)
  | tick
  | keypad (keys : BitVec 16)
  deriving DecidableEq, Repr

/-- What an event does (R267). A TICK of a halted core is refused: no effect of it may be relied on (R260, D21; DESIGN CHOICE, log
entry 14). -/
def State.event (s : State) (e : Event) : Host.Outcome State Fault Refusal :=
  match e with
  | .reset rom => s.resetEvent rom
  | .step pick => (s.setKeyPick pick).stepEvent
  | .tick => if s.halted then .refused .halted else .next s.tick
  | .keypad keys => .next (s.setKeypad keys)

end Sys2Proof.Machine
end

