-- ==== Sys2Proof/Machine/Step.lean ====
section
/-! DEFINITION. The step of the host's interface, and an instruction placed where it fetches the next one. -/

namespace Sys2Proof.Machine

/-- One step: a STEP of the core and then the host's turn (spec/00_scope.md R13, spec/60_exceptions.md R267). -/
def step (s : State) : Host.Outcome State Fault Refusal := s.cycle

/-- The state with the instruction whose bits are `w` at `pc`, where the next STEP fetches it. -/
def State.withFetchWord (s : State) (nbits w : Nat) : State := s.placeWord nbits w

end Sys2Proof.Machine
end

