-- ==== Sys2Proof/Machine/Spelling.lean ====
section
/-! DEFINITION. The assembler spelling of each instruction (spec/30_encoding.md R112 to R121), as tokens: the mnemonic and its
operands, which instruction a spelling selects, the directives, and the listing of a ROM. The lexer, the labels and the text
itself are software outside the block (spec/00_scope.md R4). -/

namespace Sys2Proof

/-- The 20 mnemonics (R115). -/
inductive Mnemonic where
  | cls | ret | sys | jp | call | se | sne | ld | add | or | and | xor | sub | shr | subn | shl | rnd | drw | skp | sknp
  deriving DecidableEq, Repr

/-- An operand: a reserved register name (R113), or a number, which a label reference stands for too (R114). -/
inductive Operand where
  | v (x : Nibble)
  | i
  | dt
  | st
  | k
  | f
  | b
  | memI
  | num (n : Nat)
  deriving DecidableEq, Repr

/-- Why a statement or a program does not assemble (R264; spec/60_exceptions.md). None of these can occur at run time. -/
inductive AsmError where
  /-- `ParseError`: the mnemonic has no such operand shape (R115). -/
  | shape
  /-- `RangeError`: an operand outside its bit width (R116). -/
  | range
  /-- `SYS 0x0E0` and `SYS 0x0EE`, which the pattern of `SYS` excludes (R95, R100). DEDUCED, safe (log entry 21). -/
  | excluded
  /-- `LayoutError`: more than 3584 bytes (R118). -/
  | layout
  deriving DecidableEq, Repr

/-- The spelling of an instruction: the mnemonic and the operands, the destination first; a shift prints both registers (R115,
R120, D15). -/
def Instr.spelling (i : Instr) : Mnemonic × List Operand :=
  match i with
  | .cls => (.cls, [])
  | .ret => (.ret, [])
  | .sysNnn nnn => (.sys, [.num nnn.toNat])
  | .jpNnn nnn => (.jp, [.num nnn.toNat])
  | .callNnn nnn => (.call, [.num nnn.toNat])
  | .seVxKk x kk => (.se, [.v x, .num kk.toNat])
  | .sneVxKk x kk => (.sne, [.v x, .num kk.toNat])
  | .seVxVy x y => (.se, [.v x, .v y])
  | .ldVxKk x kk => (.ld, [.v x, .num kk.toNat])
  | .addVxKk x kk => (.add, [.v x, .num kk.toNat])
  | .ldVxVy x y => (.ld, [.v x, .v y])
  | .orVxVy x y => (.or, [.v x, .v y])
  | .andVxVy x y => (.and, [.v x, .v y])
  | .xorVxVy x y => (.xor, [.v x, .v y])
  | .addVxVy x y => (.add, [.v x, .v y])
  | .subVxVy x y => (.sub, [.v x, .v y])
  | .shrVxVy x y => (.shr, [.v x, .v y])
  | .subnVxVy x y => (.subn, [.v x, .v y])
  | .shlVxVy x y => (.shl, [.v x, .v y])
  | .sneVxVy x y => (.sne, [.v x, .v y])
  | .ldINnn nnn => (.ld, [.i, .num nnn.toNat])
  | .jpV0Nnn nnn => (.jp, [.v 0x0#4, .num nnn.toNat])
  | .rndVxKk x kk => (.rnd, [.v x, .num kk.toNat])
  | .drwVxVyN x y n => (.drw, [.v x, .v y, .num n.toNat])
  | .skpVx x => (.skp, [.v x])
  | .sknpVx x => (.sknp, [.v x])
  | .ldVxDt x => (.ld, [.v x, .dt])
  | .ldVxK x => (.ld, [.v x, .k])
  | .ldDtVx x => (.ld, [.dt, .v x])
  | .ldStVx x => (.ld, [.st, .v x])
  | .addIVx x => (.add, [.i, .v x])
  | .ldFVx x => (.ld, [.f, .v x])
  | .ldBVx x => (.ld, [.b, .v x])
  | .ldMemIVx x => (.ld, [.memI, .v x])
  | .ldVxMemI x => (.ld, [.v x, .memI])

/-- A number as an operand of `w` bits, or the error that it does not fit (R116). -/
def asmNum (w n : Nat) (mk : BitVec w → Instr) : Except AsmError Instr :=
  if n < 2 ^ w then .ok (mk (BitVec.ofNat w n)) else .error .range

/-- The instruction a mnemonic and its operands select, by the kinds of the operands; an omitted `Vy` of a shift is 0 (R115, R116,
R119, D15). -/
def assembleInstr (m : Mnemonic) (ops : List Operand) : Except AsmError Instr :=
  match m, ops with
  | .cls, [] => .ok .cls
  | .ret, [] => .ok .ret
  | .sys, [.num n] =>
    if n = 0x0E0 ∨ n = 0x0EE then .error .excluded else asmNum 12 n .sysNnn
  | .jp, [.num n] => asmNum 12 n .jpNnn
  | .jp, [.v x, .num n] => if x = 0x0#4 then asmNum 12 n .jpV0Nnn else .error .shape
  | .call, [.num n] => asmNum 12 n .callNnn
  | .se, [.v x, .num n] => asmNum 8 n (.seVxKk x)
  | .se, [.v x, .v y] => .ok (.seVxVy x y)
  | .sne, [.v x, .num n] => asmNum 8 n (.sneVxKk x)
  | .sne, [.v x, .v y] => .ok (.sneVxVy x y)
  | .ld, [.v x, .num n] => asmNum 8 n (.ldVxKk x)
  | .ld, [.v x, .v y] => .ok (.ldVxVy x y)
  | .ld, [.i, .num n] => asmNum 12 n .ldINnn
  | .ld, [.v x, .dt] => .ok (.ldVxDt x)
  | .ld, [.v x, .k] => .ok (.ldVxK x)
  | .ld, [.dt, .v x] => .ok (.ldDtVx x)
  | .ld, [.st, .v x] => .ok (.ldStVx x)
  | .ld, [.f, .v x] => .ok (.ldFVx x)
  | .ld, [.b, .v x] => .ok (.ldBVx x)
  | .ld, [.memI, .v x] => .ok (.ldMemIVx x)
  | .ld, [.v x, .memI] => .ok (.ldVxMemI x)
  | .add, [.v x, .num n] => asmNum 8 n (.addVxKk x)
  | .add, [.v x, .v y] => .ok (.addVxVy x y)
  | .add, [.i, .v x] => .ok (.addIVx x)
  | .or, [.v x, .v y] => .ok (.orVxVy x y)
  | .and, [.v x, .v y] => .ok (.andVxVy x y)
  | .xor, [.v x, .v y] => .ok (.xorVxVy x y)
  | .sub, [.v x, .v y] => .ok (.subVxVy x y)
  | .shr, [.v x, .v y] => .ok (.shrVxVy x y)
  | .shr, [.v x] => .ok (.shrVxVy x 0x0#4)
  | .subn, [.v x, .v y] => .ok (.subnVxVy x y)
  | .shl, [.v x, .v y] => .ok (.shlVxVy x y)
  | .shl, [.v x] => .ok (.shlVxVy x 0x0#4)
  | .rnd, [.v x, .num n] => asmNum 8 n (.rndVxKk x)
  | .drw, [.v x, .v y, .num n] => asmNum 4 n (.drwVxVyN x y)
  | .skp, [.v x] => .ok (.skpVx x)
  | .sknp, [.v x] => .ok (.sknpVx x)
  | _, _ => .error .shape

/-- A statement that emits bytes: an instruction or a directive (R114, R117). -/
inductive Statement where
  | instr (m : Mnemonic) (ops : List Operand)
  | byte (n : Nat)
  | word (n : Nat)
  | space (n : Nat)
  deriving DecidableEq, Repr

/-- The bytes a statement emits: an instruction's word and a `.word` with the more significant byte first, `.space` as zero bytes
(R100, R117, D15). The spec gives the operands of the directives no range (N18). DESIGN CHOICE, safe (log entry 22): `.byte`
takes 0 to 255 and `.word` 0 to 65535, what their bytes hold, and a larger number is a `RangeError`; `.space` takes any number. -/
def Statement.bytes (s : Statement) : Except AsmError (List Byte) :=
  match s with
  | .instr m ops =>
    match assembleInstr m ops with
    | .ok i => .ok (encodeBytes i)
    | .error e => .error e
  | .byte n => if n < 2 ^ 8 then .ok [BitVec.ofNat 8 n] else .error .range
  | .word n =>
    if n < 2 ^ 16 then .ok [(BitVec.ofNat 16 n).extractLsb' 8 8, (BitVec.ofNat 16 n).extractLsb' 0 8] else .error .range
  | .space n => .ok (List.replicate n 0x00#8)

/-- How many bytes a statement takes in the layout, whatever its operands: the sizes are known before the operands are checked
(R117, R118). -/
def Statement.size (s : Statement) : Nat :=
  match s with
  | .instr _ _ => 2
  | .byte _ => 1
  | .word _ => 2
  | .space n => n

/-- The size of a program's image (R118). -/
def imageSize (p : List Statement) : Nat := (p.map Statement.size).sum

/-- The errors of the statements, in order (R118, R264). -/
def statementErrors (p : List Statement) : List AsmError :=
  match p with
  | [] => []
  | s :: rest =>
    match s.bytes with
    | .ok _ => statementErrors rest
    | .error e => e :: statementErrors rest

/-- Every error of a program, collected: those of its statements, and `LayoutError` when its image is longer than 3584 bytes
(R118, R264). The spec gives the collected errors no order. DESIGN CHOICE, safe (log entry 22): the order of the statements, the
layout last. -/
def asmErrors (p : List Statement) : List AsmError :=
  statementErrors p ++ if imageSize p ≤ Config.romMax then [] else [.layout]

/-- The bytes of the statements that assemble, in order (R118). -/
def imageBytes (p : List Statement) : List Byte :=
  match p with
  | [] => []
  | s :: rest =>
    match s.bytes with
    | .ok bs => bs ++ imageBytes rest
    | .error _ => imageBytes rest

/-- The ROM of a program, the first byte to stand at 0x200; no ROM when there is any error, and then all of them (R118, R264). -/
def assemble (p : List Statement) : Except (List AsmError) (List Byte) :=
  match asmErrors p with
  | [] => .ok (imageBytes p)
  | es => .error es

/-- The statement the listing prints for a word: its instruction's spelling, or `.word` where it does not decode (R120). -/
def listWord (w : Word) : Statement :=
  match decode w with
  | some i => .instr i.spelling.1 i.spelling.2
  | none => .word w.toNat

/-- The canonical listing of a ROM: a linear sweep in 2-byte strides from its start (R120). The spec says nothing of the sweep at an
odd last byte (N19). DEDUCED from the law R121, which is of any ROM (log entry 21): that byte is listed as `.byte`. -/
def listing (rom : List Byte) : List Statement :=
  match rom with
  | hi :: lo :: rest => listWord (wordOfBytes hi lo) :: listing rest
  | [b] => [.byte b.toNat]
  | [] => []

end Sys2Proof
end

