-- ==== Sys2Proof/Safety.lean ====
section
/-! DEFINITION. The terms claims are stated in: a run without a fault, the invariant of the states, the parts of the state and
what an event changes of them, and what it is for an instruction to run as its rule says. -/

namespace Sys2Proof.Machine

/-- `n` steps from `s` all answer a next state: no fault is raised and nothing is refused (spec/60_exceptions.md R261). -/
def State.Safe (s : State) (n : Nat) : Prop := ∃ t, Host.Core.run Sys2Proof.core n s = .next t

/-- The invariant: memory is in its canonical form, and the core is halted exactly when it holds a fault record (R37, R257). The
ranges of R40 for `pc`, `SP`, `V`, `DT`, `ST`, `I` and the stack entries hold by the types of the fields. -/
abbrev State.Inv (s : State) : Prop := Memory.wf s.font s.mem = true ∧ s.halted = s.fault.isSome

/-- A part of the state that an instruction may change: a register, `I`, `SP`, a stack entry, a timer, a byte of memory, a pixel,
or the random source. -/
inductive Part where
  | reg (r : Nibble)
  | i
  | sp
  | stack (k : Fin 16)
  | dt
  | st
  | byte (a : Addr)
  | pixel (x : Fin 64) (y : Fin 32)
  | random
  deriving DecidableEq, Repr

/-- `t` is `s` but for the parts listed and `pc`: every other register, byte and pixel, the halted flag, the fault record, the
font, the keypad and the host's script are as they were. -/
def OnlyChanges (parts : Set Part) (s t : State) : Prop :=
  (∀ r, Part.reg r ∉ parts → t.getV r = s.getV r) ∧
  (Part.i ∉ parts → t.i = s.i) ∧
  (Part.sp ∉ parts → t.sp = s.sp) ∧
  (∀ k : Fin 16, Part.stack k ∉ parts → t.stack[k] = s.stack[k]) ∧
  (Part.dt ∉ parts → t.dt = s.dt) ∧
  (Part.st ∉ parts → t.st = s.st) ∧
  (∀ a, Part.byte a ∉ parts → t.readByte a = s.readByte a) ∧
  (∀ (x : Fin 64) (y : Fin 32), Part.pixel x y ∉ parts → t.pixel x.val y.val = s.pixel x.val y.val) ∧
  (Part.random ∉ parts → t.env.rng = s.env.rng ∧ t.env.draws = s.env.draws) ∧
  t.halted = s.halted ∧ t.fault = s.fault ∧ t.font = s.font ∧
  t.env.keypad = s.env.keypad ∧ t.env.keyPick = s.env.keyPick ∧
  t.env.script = s.env.script ∧ t.env.turns = s.env.turns

/-- Instruction `i`, whose word is `word`, runs in `s` towards `new`: the word decodes to `i`, and when `new` is an address, exec
answers a next state whose `pc` is `new` and of which `P` holds (R13). -/
def RunsAs (i : Instr) (word : Nat) (s : State) (new : Nat) (P : State → Prop) : Prop :=
  decode (BitVec.ofNat 16 word) = some i ∧ (new ≤ 0xFFF → ∃ t, exec i s = .next t ∧ t.pc.toNat = new ∧ P t)

end Sys2Proof.Machine
end

