-- ==== Sys2Proof/Certificates/Slice0/Obligations.lean ====
section
/-! DEFINITION. The statements for the provers. Each docstring names the rules of spec/ it formalises. -/

open Sys2Proof Sys2Proof.Machine

/-! ### Encoding -/

/-- R101, R100, R96: decoding the encoding of a well-formed instruction gives it back, as a word and as bytes followed by any
other bytes. -/
def Obligations.DecodeEncodeRoundTrip : Prop :=
  ∀ (i : Instr) (rest : List Byte), i.wellFormed = true →
    decode (encode i) = some i ∧ decodeBytes (encodeBytes i ++ rest) = .ok (i, rest)

/-- R101, R97: a word that decodes is the encoding of what it decodes to, which is an instruction value. -/
def Obligations.EncodeDecodeRoundTrip : Prop :=
  ∀ (w : Word) (i : Instr), decode w = some i → encode i = w ∧ i.wellFormed = true

/-- R102, R97, R98: the illegal words, by their digits: `5xyL` and `9xyL` with L not 0, `8xyL` with L in 8, 9, A, B, C, D, F,
`ExLL` and `FxLL` with LL not listed; no other. -/
def Obligations.IllegalWordsByDigits : Prop :=
  ∀ op : Word, decode op = none ↔
    (op.toNat / 4096 = 0x5 ∧ op.toNat % 16 ≠ 0) ∨
    (op.toNat / 4096 = 0x8 ∧ op.toNat % 16 ∈ [0x8, 0x9, 0xA, 0xB, 0xC, 0xD, 0xF]) ∨
    (op.toNat / 4096 = 0x9 ∧ op.toNat % 16 ≠ 0) ∨
    (op.toNat / 4096 = 0xE ∧ op.toNat % 256 ∉ [0x9E, 0xA1]) ∨
    (op.toNat / 4096 = 0xF ∧ op.toNat % 256 ∉ [0x07, 0x0A, 0x15, 0x18, 0x1E, 0x29, 0x33, 0x55, 0x65])

/-- R95, R96, R98: a few words, one or more of each format, and what they decode to. -/
def Obligations.SampleWordsDecode : Prop :=
  decode 0x00E0#16 = some .cls ∧ decode 0x00EE#16 = some .ret ∧ decode 0x0000#16 = some (.sysNnn 0x000#12) ∧
  decode 0x00E1#16 = some (.sysNnn 0x0E1#12) ∧ decode 0x5120#16 = some (.seVxVy 0x1#4 0x2#4) ∧ decode 0x5121#16 = none ∧
  decode 0x8ABE#16 = some (.shlVxVy 0xA#4 0xB#4) ∧ decode 0x8128#16 = none ∧ decode 0xE19E#16 = some (.skpVx 0x1#4) ∧
  decode 0xE19F#16 = none ∧ decode 0xF065#16 = some (.ldVxMemI 0x0#4) ∧ decode 0xF066#16 = none ∧
  decode 0xD12F#16 = some (.drwVxVyN 0x1#4 0x2#4 0xF#4) ∧ decode 0xBFFF#16 = some (.jpV0Nnn 0xFFF#12) ∧
  decode 0xC3A5#16 = some (.rndVxKk 0x3#4 0xA5#8) ∧ decode 0xFFFF#16 = none

/-- R121, R120, R117: the listing of any ROM of at most 3584 bytes assembles to that ROM, byte for byte; so does the listing of any
ROM that the assembler produces, and it produces none longer (R118). How an odd last byte is listed is what the law itself asks
for (log entry 21). -/
def Obligations.ListingAssemblesBack : Prop :=
  (∀ rom : List Byte, rom.length ≤ 3584 → assemble (listing rom) = .ok rom) ∧
  ∀ (p : List Statement) (rom : List Byte), assemble p = .ok rom → rom.length ≤ 3584 ∧ assemble (listing rom) = .ok rom

/-! ### The step, faults and reset -/

/-- R13: a step of a core that is not halted runs the instruction its two bytes at `pc` decode to. What this model adds around
it (log entry 5): where that answers a next state, the host's turn follows. -/
def Obligations.StepRunsDecodedInstruction : Prop :=
  ∀ (s : State) (op : Word) (i : Instr), s.halted = false → s.pc.toNat ≤ 0xFFE →
    op.toNat = 256 * (s.readByte s.pc).toNat + (s.readByte (BitVec.ofNat 12 (s.pc.toNat + 1))).toNat →
    decode op = some i →
    (∀ t, exec i s = .next t → step s = .next t.hostTurn) ∧
    (∀ f, exec i s = .fault f → step s = .fault f)

/-- R250: a step raises `IllegalInstruction` exactly when the word at `pc` decodes to none, and records its address and the
word. -/
def Obligations.IllegalInstructionExactly : Prop :=
  ∀ (s : State) (op : Word), s.halted = false → s.pc.toNat ≤ 0xFFE →
    op.toNat = 256 * (s.readByte s.pc).toNat + (s.readByte (BitVec.ofNat 12 (s.pc.toNat + 1))).toNat →
    (decode op = none → step s = .fault (.illegalInstruction s.pc op)) ∧
    (∀ a w, step s = .fault (.illegalInstruction a w) → decode op = none ∧ a = s.pc ∧ w = op)

/-- R71, R254, the spec's own decision D3: a fetch at 0xFFF raises `PcOutOfRange` with no word, whatever memory holds. -/
def Obligations.FetchAtTopFaults : Prop :=
  ∀ (s : State) (a : Addr) (b : Byte), s.halted = false → s.pc = 0xFFF#12 →
    step (s.writeByte a b) = .fault (.pcOutOfRange 0xFFF#12 none)

/-- R37, R257, R260, the spec's own decision D8: fault entry sets the halted flag and the record and changes nothing else. No STEP
is possible after it (this model refuses it, log entry 6); no event but RESET leads out: after a STEP, a TICK (this model
refuses it, log entry 14) or a keypad change the core is still halted with the same record; and RESET clears both. -/
def Obligations.FaultEntryAndExit : Prop :=
  ∀ (s : State) (f : Fault), s.stepEvent = .fault f →
    (s.settle s.stepEvent).halted = true ∧ (s.settle s.stepEvent).fault = some f ∧
    (s.settle s.stepEvent).pc = s.pc ∧
    OnlyChanges ∅ { s with halted := true, fault := some f } (s.settle s.stepEvent) ∧
    step (s.settle s.stepEvent) = .refused .halted ∧
    (∀ e : Event, (∀ rom, e ≠ .reset rom) →
      ((s.settle s.stepEvent).settle ((s.settle s.stepEvent).event e)).halted = true ∧
      ((s.settle s.stepEvent).settle ((s.settle s.stepEvent).event e)).fault = some f) ∧
    ∀ rom : List Byte, rom.length ≤ 3584 →
      ∃ u, (s.settle s.stepEvent).resetEvent rom = .next u ∧ u.halted = false ∧ u.fault = none

/-- R37, the spec's own decision D8: the record of a fault names the address of the faulting instruction and its word, the word absent exactly when the fetch
could not be completed. -/
def Obligations.FaultRecordNamesInstruction : Prop :=
  ∀ (s : State) (f : Fault), step s = .fault f →
    f.addr = s.pc ∧
    (s.pc = 0xFFF#12 → f.word = none) ∧
    (s.pc ≠ 0xFFF#12 → ∃ w : Word, f.word = some w ∧
      w.toNat = 256 * (s.readByte s.pc).toNat + (s.readByte (BitVec.ofNat 12 (s.pc.toNat + 1))).toNat)

/-- R256, the spec's own decisions D3, D4 and D9: which instruction raises which fault, and when. No instruction raises any other. -/
def Obligations.FaultsOnlyFromTheirCauses : Prop :=
  ∀ (i : Instr) (s : State) (f : Fault), exec i s = .fault f →
    match f with
    | .illegalInstruction _ _ => False
    | .stackOverflow _ _ => ∃ nnn, i = .callNnn nnn ∧ s.sp.val = 16
    | .stackUnderflow _ _ => i = .ret ∧ s.sp.val = 0
    | .memoryFault _ _ =>
      (∃ x, i = .ldBVx x ∧ 4095 < s.i.toNat + 2) ∨
      (∃ x, (i = .ldMemIVx x ∨ i = .ldVxMemI x) ∧ 4095 < s.i.toNat + x.toNat)
    | .pcOutOfRange _ op => op ≠ none ∧ (0xFFC ≤ s.pc.toNat ∨ ∃ nnn, i = .jpV0Nnn nnn ∧ 0xFFF < nnn.toNat + (s.getV 0#4).toNat)
    | .keyIndexOutOfRange _ _ => ∃ x, (i = .skpVx x ∨ i = .sknpVx x) ∧ 15 < (s.getV x).toNat

/-- R254, the spec's own decision D3: an instruction whose new `pc` would exceed 0xFFF, and a `CALL` whose return address would,
faults with its address and word; a jump, a return and a wait do not, wherever they stand. -/
def Obligations.PcPastTheTopFaults : Prop :=
  ∀ (i : Instr) (s : State),
    match i with
    | .jpNnn _ => ∀ a w, exec i s ≠ .fault (.pcOutOfRange a w)
    | .ret => ∀ a w, exec i s ≠ .fault (.pcOutOfRange a w)
    | .callNnn _ => s.sp.val < 16 → 0xFFF < s.pc.toNat + 2 → exec i s = .fault (.pcOutOfRange s.pc (some (encode i)))
    | .jpV0Nnn nnn =>
      0xFFF < nnn.toNat + (s.getV 0#4).toNat → exec i s = .fault (.pcOutOfRange s.pc (some (encode i)))
    | .seVxKk x kk =>
      0xFFF < s.pc.toNat + (if (s.getV x).toNat = kk.toNat then 4 else 2) →
        exec i s = .fault (.pcOutOfRange s.pc (some (encode i)))
    | .sneVxKk x kk =>
      0xFFF < s.pc.toNat + (if (s.getV x).toNat = kk.toNat then 2 else 4) →
        exec i s = .fault (.pcOutOfRange s.pc (some (encode i)))
    | .seVxVy x y =>
      0xFFF < s.pc.toNat + (if (s.getV x).toNat = (s.getV y).toNat then 4 else 2) →
        exec i s = .fault (.pcOutOfRange s.pc (some (encode i)))
    | .sneVxVy x y =>
      0xFFF < s.pc.toNat + (if (s.getV x).toNat = (s.getV y).toNat then 2 else 4) →
        exec i s = .fault (.pcOutOfRange s.pc (some (encode i)))
    | .skpVx x =>
      (s.getV x).toNat ≤ 15 →
        0xFFF < s.pc.toNat + (if s.env.keypad.toNat / 2 ^ (s.getV x).toNat % 2 = 1 then 4 else 2) →
        exec i s = .fault (.pcOutOfRange s.pc (some (encode i)))
    | .sknpVx x =>
      (s.getV x).toNat ≤ 15 →
        0xFFF < s.pc.toNat + (if s.env.keypad.toNat / 2 ^ (s.getV x).toNat % 2 = 1 then 2 else 4) →
        exec i s = .fault (.pcOutOfRange s.pc (some (encode i)))
    | .ldVxK _ =>
      (s.env.keypad = 0#16 → ∀ f, exec i s ≠ .fault f) ∧
      (s.env.keypad ≠ 0#16 → 0xFFF < s.pc.toNat + 2 → exec i s = .fault (.pcOutOfRange s.pc (some (encode i))))
    | .ldBVx _ =>
      s.i.toNat + 2 ≤ 4095 → 0xFFF < s.pc.toNat + 2 → exec i s = .fault (.pcOutOfRange s.pc (some (encode i)))
    | .ldMemIVx x =>
      s.i.toNat + x.toNat ≤ 4095 → 0xFFF < s.pc.toNat + 2 → exec i s = .fault (.pcOutOfRange s.pc (some (encode i)))
    | .ldVxMemI x =>
      s.i.toNat + x.toNat ≤ 4095 → 0xFFF < s.pc.toNat + 2 → exec i s = .fault (.pcOutOfRange s.pc (some (encode i)))
    | _ => 0xFFF < s.pc.toNat + 2 → exec i s = .fault (.pcOutOfRange s.pc (some (encode i)))

/-- R263, R266: every instruction is available at all times; none is refused, in any state. -/
def Obligations.NoInstructionIsRefused : Prop :=
  ∀ (i : Instr) (s : State) (r : Refusal), exec i s ≠ .refused r

/-- R39, the fault state by the spec's own decision D8: the values the spec gives for reset, in the state of an empty ROM. -/
def Obligations.ResetValues : Prop :=
  (∀ r, State.reset.getV r = 0#8) ∧ State.reset.i = 0#16 ∧ State.reset.pc = 0x200#12 ∧ State.reset.sp.val = 0 ∧
  (∀ k : Fin 16, State.reset.stack[k] = 0#12) ∧ State.reset.dt = 0#8 ∧ State.reset.st = 0#8 ∧
  (∀ a : Addr, 80 ≤ a.toNat → State.reset.readByte a = 0#8) ∧
  (∀ k : Fin 80, State.reset.readByte (BitVec.ofNat 12 k.val) = State.reset.font[k]) ∧
  (∀ (x : Fin 64) (y : Fin 32), State.reset.pixel x.val y.val = false) ∧
  State.reset.halted = false ∧ State.reset.fault = none

/-- R292, R39, the halted flag and the fault record by the spec's own decision D8 (R37): RESET with a ROM of at most 3584 bytes
zeroes all state, whatever it was, writes the font at 0x000, copies the ROM to 0x200, sets `pc` to 0x200 and clears the halted
flag and the fault record. The core does not reset the keypad and the random source (R292); that they, the font parameter
(log entry 1) and the model's own fields of `env` (the key choice, the script of host turns and the counts) stand as they were
is this model's choice (log entries 2 to 5). -/
def Obligations.ResetEventBuildsState : Prop :=
  ∀ (s : State) (rom : List Byte), rom.length ≤ 3584 →
    ∃ t, s.resetEvent rom = .next t ∧
      (∀ r, t.getV r = 0#8) ∧ t.i = 0#16 ∧ t.pc = 0x200#12 ∧ t.sp.val = 0 ∧ (∀ k : Fin 16, t.stack[k] = 0#12) ∧
      t.dt = 0#8 ∧ t.st = 0#8 ∧ (∀ (x : Fin 64) (y : Fin 32), t.pixel x.val y.val = false) ∧
      (∀ k : Fin 80, t.readByte (BitVec.ofNat 12 k.val) = s.font[k]) ∧
      (∀ k : Fin rom.length, t.readByte (BitVec.ofNat 12 (0x200 + k.val)) = rom[k]) ∧
      (∀ a : Addr, 80 ≤ a.toNat → a.toNat < 0x200 ∨ 0x200 + rom.length ≤ a.toNat → t.readByte a = 0#8) ∧
      t.halted = false ∧ t.fault = none ∧ t.font = s.font ∧ t.env = s.env

/-- R294, the spec's own decision D14: RESET is defined for no ROM longer than 3584 bytes; the model refuses it. -/
def Obligations.ResetRefusesLongRom : Prop :=
  ∀ (s : State) (rom : List Byte), 3584 < rom.length ↔ s.resetEvent rom = .refused .romTooLong

/-- R293: after RESET the first STEP fetches the first two bytes of the ROM, the first the more significant. -/
def Obligations.FirstFetchAfterReset : Prop :=
  ∀ (s t : State) (b0 b1 : Byte) (rest : List Byte), s.resetEvent (b0 :: b1 :: rest) = .next t →
    ∃ op : Word, t.fetch = .ok op ∧ op.toNat = 256 * b0.toNat + b1.toNat

/-- The state after reset, with the values this model gives the font and the inputs (log entries 1 to 5), meets the invariant. That
memory is in canonical form is this model's own representation (log entry 16), no rule of the spec; that the core is halted
exactly when it holds a fault record is R37's. -/
def Obligations.ResetMeetsInvariant : Prop := State.reset.Inv

/-- Every step keeps the invariant, from every state that meets it. That memory is in canonical form is this model's own
representation (log entry 16), no rule of the spec; that the core is halted exactly when it holds a fault record is R37's and
R257's. -/
def Obligations.StepKeepsInvariant : Prop :=
  ∀ s t : State, s.Inv → step s = .next t → t.Inv

/-- Every event of R267, fault entry (R257) and RESET with any ROM included, leaves a state that meets the invariant. That memory
is in canonical form is this model's own representation (log entry 16), no rule of the spec. -/
def Obligations.EventsKeepInvariant : Prop :=
  ∀ (s : State) (e : Event), s.Inv → (s.settle (s.event e)).Inv

/-- R24, R40: `I` stays at most 4095 but for an `ADD I, Vx` whose sum exceeds 4095. -/
def Obligations.IStaysTwelveBitsButForAddI : Prop :=
  ∀ s t : State, s.i.toNat ≤ 4095 → step s = .next t →
    (∀ x, decode s.fetchWord = some (.addIVx x) → s.i.toNat + (s.getV x).toNat ≤ 4095) → t.i.toNat ≤ 4095

/-! ### Memory and fetch -/

/-- R66: writing a value and then reading it returns that value, and every other byte reads as before. -/
def Obligations.ReadAfterWrite : Prop :=
  ∀ (s : State) (a : Addr) (b : Byte),
    (s.writeByte a b).readByte a = b ∧ ∀ a' : Addr, a' ≠ a → (s.writeByte a b).readByte a' = s.readByte a'

/-- R61: the word a fetch gives has the byte at `pc` as its more significant half. -/
def Obligations.FetchIsBigEndian : Prop :=
  ∀ s : State, s.pc.toNat ≤ 0xFFE →
    ∃ op, s.fetch = .ok op ∧
      op.toNat = 256 * (s.readByte s.pc).toNat + (s.readByte (BitVec.ofNat 12 (s.pc.toNat + 1))).toNat

/-- R61, R100: a word of the opcode table placed at `pc` (this model's `withFetchWord`, log entry 7) is the word fetched, and `pc`
stays; nothing but its two bytes changes. -/
def Obligations.PlacedWordIsFetched : Prop :=
  ∀ (s : State) (w : Nat), s.pc.toNat ≤ 0xFFE → w < 65536 →
    (s.withFetchWord 16 w).fetch = .ok (BitVec.ofNat 16 w) ∧ (s.withFetchWord 16 w).pc = s.pc ∧
    OnlyChanges {Part.byte s.pc, Part.byte (s.pc + 1#12)} s (s.withFetchWord 16 w)

/-- The byte at address `a` after `LD [I], Vx` in `s`: `V[a - I]` from `I` to `I + x`, elsewhere the byte before (R194). -/
def Sys2Proof.Machine.byteAfterRegs (s : State) (x : Nibble) (a : Nat) : Nat :=
  if s.i.toNat ≤ a ∧ a ≤ s.i.toNat + x.toNat then (s.getV (BitVec.ofNat 4 (a - s.i.toNat))).toNat
  else (s.readByte (BitVec.ofNat 12 a)).toNat

/-- The byte at address `a` after `LD B, Vx` in `s`: a digit of `V[x]` from `I` to `I + 2`, elsewhere the byte before (R193). -/
def Sys2Proof.Machine.byteAfterDigits (s : State) (x : Nibble) (a : Nat) : Nat :=
  if a = s.i.toNat then (s.getV x).toNat / 100
  else if a = s.i.toNat + 1 then (s.getV x).toNat / 10 % 10
  else if a = s.i.toNat + 2 then (s.getV x).toNat % 10
  else (s.readByte (BitVec.ofNat 12 a)).toNat

/-- R76, an inference the spec marks as derived from R73 and R13: wherever `LD [I], Vx` or `LD B, Vx` stores, the next fetch reads
the bytes stored where they stand at the next instruction, one or both of its bytes, and the bytes before elsewhere. -/
def Obligations.StoreIsSeenByNextFetch : Prop :=
  ∀ (s t : State) (x : Nibble), s.pc.toNat ≤ 0xFFC →
    (exec (.ldMemIVx x) s = .next t → ∃ op : Word, t.fetch = .ok op ∧
      op.toNat = 256 * byteAfterRegs s x (s.pc.toNat + 2) + byteAfterRegs s x (s.pc.toNat + 3)) ∧
    (exec (.ldBVx x) s = .next t → ∃ op : Word, t.fetch = .ok op ∧
      op.toNat = 256 * byteAfterDigits s x (s.pc.toNat + 2) + byteAfterDigits s x (s.pc.toNat + 3))

/-! ### TICK and the host's turn -/

/-- R268: a TICK decrements `DT` and `ST` by one each, saturating at 0, and changes nothing else, `pc` included. -/
def Obligations.TickDecrementsTimers : Prop :=
  ∀ s : State,
    (0 < s.dt.toNat → s.tick.dt.toNat = s.dt.toNat - 1) ∧ (s.dt.toNat = 0 → s.tick.dt.toNat = 0) ∧
    (0 < s.st.toNat → s.tick.st.toNat = s.st.toNat - 1) ∧ (s.st.toNat = 0 → s.tick.st.toNat = 0) ∧
    OnlyChanges {Part.dt, Part.st} s s.tick ∧ s.tick.pc = s.pc

/-- R267, R268, R236: the host's turn that follows a step is some number of TICKs, whatever that number is, and a new keypad
sample; it changes no other core state. -/
def Obligations.HostTurnIsTicksAndKeypad : Prop :=
  ∀ s : State,
    s.hostTurn.dt = (State.tick^[s.nextTurn.ticks] s).dt ∧ s.hostTurn.st = (State.tick^[s.nextTurn.ticks] s).st ∧
    s.hostTurn.env.keypad = s.nextTurn.keypad ∧
    s.hostTurn.env.rng = s.env.rng ∧ s.hostTurn.env.draws = s.env.draws ∧
    s.hostTurn.pc = s.pc ∧
    OnlyChanges {Part.dt, Part.st} { s with env := s.hostTurn.env } s.hostTurn

/-! ### Control flow -/

/-- R130: `SYS nnn` advances `pc` and changes nothing else. (Here and below, what happens when the new `pc` would exceed 0xFFF is
the spec's own decision D3, stated once in `PcPastTheTopFaults`.) -/
def Obligations.SysOnlyAdvances : Prop :=
  ∀ (s : State) (nnn : Addr), nnn ≠ 0x0E0#12 → nnn ≠ 0x0EE#12 →
    RunsAs (.sysNnn nnn) nnn.toNat s (s.pc.toNat + 2) (OnlyChanges ∅ s)

/-- R132: `JP nnn` sets `pc` to `nnn` from any address, with no fault, and changes nothing else. -/
def Obligations.JumpSetsPc : Prop :=
  ∀ (s : State) (nnn : Addr),
    RunsAs (.jpNnn nnn) (0x1000 + nnn.toNat) s nnn.toNat (OnlyChanges ∅ s) ∧ ∀ f, exec (.jpNnn nnn) s ≠ .fault f

/-- R138: `JP V0, nnn` sets `pc` to `nnn + V[0]`, where that sum is an address. -/
def Obligations.JumpV0AddsRegisterZero : Prop :=
  ∀ (s : State) (nnn : Addr),
    RunsAs (.jpV0Nnn nnn) (0xB000 + nnn.toNat) s (nnn.toNat + (s.getV 0#4).toNat) (OnlyChanges ∅ s)

/-- R133: `CALL nnn` pushes `a + 2` and jumps, in any state whose stack has room and whose return address is one; it overflows
when `SP = 16`. -/
def Obligations.CallPushesAndJumps : Prop :=
  ∀ (s : State) (nnn : Addr),
    decode (BitVec.ofNat 16 (0x2000 + nnn.toNat)) = some (.callNnn nnn) ∧
    (∀ h : s.sp.val < 16, s.pc.toNat + 2 ≤ 0xFFF → ∃ t, exec (.callNnn nnn) s = .next t ∧
      t.pc = nnn ∧ t.sp.val = s.sp.val + 1 ∧ (t.stack[s.sp.val]).toNat = s.pc.toNat + 2 ∧
      OnlyChanges {Part.sp, Part.stack ⟨s.sp.val, h⟩} s t) ∧
    (s.sp.val = 16 → exec (.callNnn nnn) s = .fault (.stackOverflow s.pc (BitVec.ofNat 16 (0x2000 + nnn.toNat))))

/-- R131, R252: `RET` takes the entry at the new `SP`; it underflows when `SP = 0`, and has no other fault. That the entry stays in
the stack is what R26 marks as derived (DEDUCED, log entry 15). -/
def Obligations.RetPopsAndJumps : Prop :=
  ∀ s : State,
    decode (BitVec.ofNat 16 0x00EE) = some .ret ∧
    (∀ k : Fin 16, s.sp.val = k.val + 1 → ∃ t, exec .ret s = .next t ∧
      t.sp.val = k.val ∧ t.pc = s.stack[k] ∧ OnlyChanges {Part.sp} s t) ∧
    (s.sp.val = 0 → exec .ret s = .fault (.stackUnderflow s.pc (BitVec.ofNat 16 0x00EE)))

/-- R131, R133: a `RET` executed anywhere after a `CALL`, with the stack as the `CALL` left it, goes back to the instruction after
the `CALL` with `SP` as before it. -/
def Obligations.RetUndoesCall : Prop :=
  ∀ (s t : State) (nnn a : Addr), exec (.callNnn nnn) s = .next t →
    ∃ u, exec .ret (t.setPc a) = .next u ∧ u.pc.toNat = s.pc.toNat + 2 ∧ u.sp = s.sp

/-- R134, R135, R136, R137: the four skips go to `a + 4` when their condition holds and to `a + 2` when not, and change nothing
else. -/
def Obligations.SkipsTestRegisters : Prop :=
  ∀ (s : State) (x y : Nibble) (kk : Byte),
    RunsAs (.seVxKk x kk) (0x3000 + 0x100 * x.toNat + kk.toNat) s
      (s.pc.toNat + if (s.getV x).toNat = kk.toNat then 4 else 2) (OnlyChanges ∅ s) ∧
    RunsAs (.sneVxKk x kk) (0x4000 + 0x100 * x.toNat + kk.toNat) s
      (s.pc.toNat + if (s.getV x).toNat = kk.toNat then 2 else 4) (OnlyChanges ∅ s) ∧
    RunsAs (.seVxVy x y) (0x5000 + 0x100 * x.toNat + 0x10 * y.toNat) s
      (s.pc.toNat + if (s.getV x).toNat = (s.getV y).toNat then 4 else 2) (OnlyChanges ∅ s) ∧
    RunsAs (.sneVxVy x y) (0x9000 + 0x100 * x.toNat + 0x10 * y.toNat) s
      (s.pc.toNat + if (s.getV x).toNat = (s.getV y).toNat then 2 else 4) (OnlyChanges ∅ s)

/-! ### Registers and arithmetic -/

/-- R160, R162, R190: `LD Vx, kk`, `LD Vx, Vy`, and `LD I, nnn` for every `nnn`. -/
def Obligations.LoadsSetRegister : Prop :=
  ∀ (s : State) (x y : Nibble) (kk : Byte) (nnn : Addr),
    RunsAs (.ldVxKk x kk) (0x6000 + 0x100 * x.toNat + kk.toNat) s (s.pc.toNat + 2) (fun t =>
      t.getV x = kk ∧ OnlyChanges {Part.reg x} s t) ∧
    RunsAs (.ldVxVy x y) (0x8000 + 0x100 * x.toNat + 0x10 * y.toNat) s (s.pc.toNat + 2) (fun t =>
      t.getV x = s.getV y ∧ OnlyChanges {Part.reg x} s t) ∧
    RunsAs (.ldINnn nnn) (0xA000 + nnn.toNat) s (s.pc.toNat + 2) (fun t =>
      t.i.toNat = nnn.toNat ∧ OnlyChanges {Part.i} s t)

/-- R161: `ADD Vx, kk` adds modulo 256 and writes no flag. -/
def Obligations.AddImmediateWrapsWithoutFlag : Prop :=
  ∀ (s : State) (x : Nibble) (kk : Byte),
    RunsAs (.addVxKk x kk) (0x7000 + 0x100 * x.toNat + kk.toNat) s (s.pc.toNat + 2) (fun t =>
      (t.getV x).toNat = ((s.getV x).toNat + kk.toNat) % 256 ∧ OnlyChanges {Part.reg x} s t)

/-- R163, R164, R165: `OR`, `AND` and `XOR`, bit by bit. That they leave `VF` as it was is the spec's reading of the table's silence
(N22, U7; DEDUCED, log entry 13). -/
def Obligations.LogicIsBitwiseWithoutFlag : Prop :=
  ∀ (s : State) (x y : Nibble),
    RunsAs (.orVxVy x y) (0x8001 + 0x100 * x.toNat + 0x10 * y.toNat) s (s.pc.toNat + 2) (fun t =>
      (∀ k : Fin 8, (t.getV x).getLsbD k.val = ((s.getV x).getLsbD k.val || (s.getV y).getLsbD k.val)) ∧
      OnlyChanges {Part.reg x} s t) ∧
    RunsAs (.andVxVy x y) (0x8002 + 0x100 * x.toNat + 0x10 * y.toNat) s (s.pc.toNat + 2) (fun t =>
      (∀ k : Fin 8, (t.getV x).getLsbD k.val = ((s.getV x).getLsbD k.val && (s.getV y).getLsbD k.val)) ∧
      OnlyChanges {Part.reg x} s t) ∧
    RunsAs (.xorVxVy x y) (0x8003 + 0x100 * x.toNat + 0x10 * y.toNat) s (s.pc.toNat + 2) (fun t =>
      (∀ k : Fin 8, (t.getV x).getLsbD k.val = ((s.getV x).getLsbD k.val ^^ (s.getV y).getLsbD k.val)) ∧
      OnlyChanges {Part.reg x} s t)

/-- R167: `ADD Vx, Vy` adds modulo 256 and then, last, sets `VF` to the carry, which is what `VF` holds when `x = 15`. -/
def Obligations.AddSetsCarryLast : Prop :=
  ∀ (s : State) (x y : Nibble),
    RunsAs (.addVxVy x y) (0x8004 + 0x100 * x.toNat + 0x10 * y.toNat) s (s.pc.toNat + 2) (fun t =>
      (x ≠ 0xF#4 → (t.getV x).toNat = ((s.getV x).toNat + (s.getV y).toNat) % 256) ∧
      (t.getV 0xF#4).toNat = (if 255 < (s.getV x).toNat + (s.getV y).toNat then 1 else 0) ∧
      OnlyChanges {Part.reg x, Part.reg 0xF#4} s t)

/-- R168, R170: `SUB` and `SUBN` subtract modulo 256 and then, last, set `VF` to 1 when there is no borrow. -/
def Obligations.SubtractionsSetNoBorrowLast : Prop :=
  ∀ (s : State) (x y : Nibble),
    RunsAs (.subVxVy x y) (0x8005 + 0x100 * x.toNat + 0x10 * y.toNat) s (s.pc.toNat + 2) (fun t =>
      (x ≠ 0xF#4 → (t.getV x).toNat = ((s.getV x).toNat + 256 - (s.getV y).toNat) % 256) ∧
      (t.getV 0xF#4).toNat = (if (s.getV y).toNat ≤ (s.getV x).toNat then 1 else 0) ∧
      OnlyChanges {Part.reg x, Part.reg 0xF#4} s t) ∧
    RunsAs (.subnVxVy x y) (0x8007 + 0x100 * x.toNat + 0x10 * y.toNat) s (s.pc.toNat + 2) (fun t =>
      (x ≠ 0xF#4 → (t.getV x).toNat = ((s.getV y).toNat + 256 - (s.getV x).toNat) % 256) ∧
      (t.getV 0xF#4).toNat = (if (s.getV x).toNat ≤ (s.getV y).toNat then 1 else 0) ∧
      OnlyChanges {Part.reg x, Part.reg 0xF#4} s t)

/-- R169, R171: `SHR` and `SHL` shift `V[x]` in place by one, whatever `y` is, and then set `VF` to the bit shifted out. -/
def Obligations.ShiftsAreInPlace : Prop :=
  ∀ (s : State) (x y : Nibble),
    RunsAs (.shrVxVy x y) (0x8006 + 0x100 * x.toNat + 0x10 * y.toNat) s (s.pc.toNat + 2) (fun t =>
      (x ≠ 0xF#4 → (t.getV x).toNat = (s.getV x).toNat / 2) ∧
      (t.getV 0xF#4).toNat = (s.getV x).toNat % 2 ∧
      OnlyChanges {Part.reg x, Part.reg 0xF#4} s t) ∧
    RunsAs (.shlVxVy x y) (0x800E + 0x100 * x.toNat + 0x10 * y.toNat) s (s.pc.toNat + 2) (fun t =>
      (x ≠ 0xF#4 → (t.getV x).toNat = 2 * (s.getV x).toNat % 256) ∧
      (t.getV 0xF#4).toNat = (s.getV x).toNat / 128 ∧
      OnlyChanges {Part.reg x, Part.reg 0xF#4} s t)

/-- R172, R273, the spec's own decision D6: `RND Vx, kk` takes exactly one byte of the random source, whatever byte that is, and stores it masked by `kk`. -/
def Obligations.RandomByteIsMasked : Prop :=
  ∀ (s : State) (x : Nibble) (kk : Byte),
    RunsAs (.rndVxKk x kk) (0xC000 + 0x100 * x.toNat + kk.toNat) s (s.pc.toNat + 2) (fun t =>
      t.getV x = s.nextRandom &&& kk ∧ t.getV x &&& ~~~kk = 0#8 ∧
      t.env.draws = s.env.draws + 1 ∧ t.env.rng = s.env.rng.drop 1 ∧
      OnlyChanges {Part.reg x, Part.random} s t)

/-! ### Address register and memory -/

/-- R191, the spec's own choice C1 and D2 of a 16-bit `I`: `ADD I, Vx` adds modulo 65536 and writes no flag. R192, an inference the
spec marks as derived from R32: `LD F, Vx` points `I` at the glyph of the low digit of `V[x]`, whatever memory holds there. -/
def Obligations.AddressRegisterArithmetic : Prop :=
  ∀ (s : State) (x : Nibble),
    RunsAs (.addIVx x) (0xF01E + 0x100 * x.toNat) s (s.pc.toNat + 2) (fun t =>
      t.i.toNat = (s.i.toNat + (s.getV x).toNat) % 65536 ∧ OnlyChanges {Part.i} s t) ∧
    RunsAs (.ldFVx x) (0xF029 + 0x100 * x.toNat) s (s.pc.toNat + 2) (fun t =>
      t.i.toNat = 5 * ((s.getV x).toNat % 16) ∧ OnlyChanges {Part.i} s t)

/-- R193: `LD B, Vx` stores the three digits of `V[x]` at `I`, `I + 1`, `I + 2`, and no other byte. -/
def Obligations.BcdStoresThreeDigits : Prop :=
  ∀ (s : State) (x : Nibble), s.i.toNat + 2 ≤ 4095 →
    RunsAs (.ldBVx x) (0xF033 + 0x100 * x.toNat) s (s.pc.toNat + 2) (fun t =>
      (t.readByte (BitVec.ofNat 12 s.i.toNat)).toNat = (s.getV x).toNat / 100 ∧
      (t.readByte (BitVec.ofNat 12 (s.i.toNat + 1))).toNat = (s.getV x).toNat / 10 % 10 ∧
      (t.readByte (BitVec.ofNat 12 (s.i.toNat + 2))).toNat = (s.getV x).toNat % 10 ∧
      OnlyChanges {p | ∃ k : Fin 3, p = Part.byte (BitVec.ofNat 12 (s.i.toNat + k.val))} s t)

/-- R194: `LD [I], Vx` stores `V[0]` to `V[x]` at `I` to `I + x`, and no other byte, `I` unchanged. -/
def Obligations.StoreRegisters : Prop :=
  ∀ (s : State) (x : Nibble), s.i.toNat + x.toNat ≤ 4095 →
    RunsAs (.ldMemIVx x) (0xF055 + 0x100 * x.toNat) s (s.pc.toNat + 2) (fun t =>
      (∀ k : Nibble, k.toNat ≤ x.toNat → t.readByte (BitVec.ofNat 12 (s.i.toNat + k.toNat)) = s.getV k) ∧
      OnlyChanges {p | ∃ k : Nibble, k.toNat ≤ x.toNat ∧ p = Part.byte (BitVec.ofNat 12 (s.i.toNat + k.toNat))} s t)

/-- R195: `LD Vx, [I]` loads `V[0]` to `V[x]` from `I` to `I + x`, the registers above `x` and `I` unchanged. -/
def Obligations.LoadRegisters : Prop :=
  ∀ (s : State) (x : Nibble), s.i.toNat + x.toNat ≤ 4095 →
    RunsAs (.ldVxMemI x) (0xF065 + 0x100 * x.toNat) s (s.pc.toNat + 2) (fun t =>
      (∀ k : Nibble, k.toNat ≤ x.toNat → t.getV k = s.readByte (BitVec.ofNat 12 (s.i.toNat + k.toNat))) ∧
      OnlyChanges {p | ∃ k : Nibble, k.toNat ≤ x.toNat ∧ p = Part.reg k} s t)

/-- R69, R253, the spec's own decision D9: the three checked transfers fault exactly when their last address would exceed 4095,
the sum not wrapping, and before anything else is checked. -/
def Obligations.TransfersPastTheTopFault : Prop :=
  ∀ (s : State) (x : Nibble),
    ((∃ a w, exec (.ldBVx x) s = .fault (.memoryFault a w)) ↔ 4095 < s.i.toNat + 2) ∧
    (4095 < s.i.toNat + 2 → exec (.ldBVx x) s = .fault (.memoryFault s.pc (BitVec.ofNat 16 (0xF033 + 0x100 * x.toNat)))) ∧
    ((∃ a w, exec (.ldMemIVx x) s = .fault (.memoryFault a w)) ↔ 4095 < s.i.toNat + x.toNat) ∧
    (4095 < s.i.toNat + x.toNat →
      exec (.ldMemIVx x) s = .fault (.memoryFault s.pc (BitVec.ofNat 16 (0xF055 + 0x100 * x.toNat)))) ∧
    ((∃ a w, exec (.ldVxMemI x) s = .fault (.memoryFault a w)) ↔ 4095 < s.i.toNat + x.toNat) ∧
    (4095 < s.i.toNat + x.toNat →
      exec (.ldVxMemI x) s = .fault (.memoryFault s.pc (BitVec.ofNat 16 (0xF065 + 0x100 * x.toNat))))

/-! ### Display -/

/-- R210: `CLS` makes every pixel 0 and changes nothing else, `VF` included. -/
def Obligations.ClearScreen : Prop :=
  ∀ s : State,
    RunsAs .cls 0x00E0 s (s.pc.toNat + 2) (fun t =>
      (∀ (x : Fin 64) (y : Fin 32), t.pixel x.val y.val = false) ∧
      OnlyChanges {p | ∃ (x : Fin 64) (y : Fin 32), p = Part.pixel x y} s t)

/-- R214, R70, R212: whether `DRW` puts a lit sprite pixel at column `px` and row `py`: the origin is the registers' values modulo
64 and 32, the sprite is 8 columns and `n` rows, its rows are read at `(I + r) mod 4096`, bit 7 the leftmost pixel; a pixel past
an edge lands nowhere. -/
def Sys2Proof.Machine.spriteLit (s : State) (x y n : Nibble) (px : Fin 64) (py : Fin 32) : Prop :=
  ∃ r b : Nat, r < n.toNat ∧ b < 8 ∧
    px.val = (s.getV x).toNat % 64 + b ∧ py.val = (s.getV y).toNat % 32 + r ∧
    (s.readByte (BitVec.ofNat 12 ((s.i.toNat + r) % 4096))).toNat / 2 ^ (7 - b) % 2 = 1

/-- R214, the spec's own decision D19 on a coordinate in `VF`: `DRW` inverts exactly the pixels where a lit sprite pixel lands, and then sets `VF` to 1 if one of them was lit before,
else 0, the coordinates having been read before `VF` is written. -/
def Obligations.DrawXorsSprite : Prop :=
  ∀ (s : State) (x y n : Nibble),
    RunsAs (.drwVxVyN x y n) (0xD000 + 0x100 * x.toNat + 0x10 * y.toNat + n.toNat) s (s.pc.toNat + 2) (fun t =>
      (∀ (px : Fin 64) (py : Fin 32),
        (spriteLit s x y n px py → t.pixel px.val py.val = !s.pixel px.val py.val) ∧
        (¬ spriteLit s x y n px py → t.pixel px.val py.val = s.pixel px.val py.val)) ∧
      ((∃ (px : Fin 64) (py : Fin 32), spriteLit s x y n px py ∧ s.pixel px.val py.val = true) → t.getV 0xF#4 = 1#8) ∧
      ((¬ ∃ (px : Fin 64) (py : Fin 32), spriteLit s x y n px py ∧ s.pixel px.val py.val = true) → t.getV 0xF#4 = 0#8) ∧
      OnlyChanges {p | p = Part.reg 0xF#4 ∨ ∃ (px : Fin 64) (py : Fin 32), p = Part.pixel px py} s t)

/-- R215, R214: drawing the same sprite twice at the same place leaves every pixel as it was. After the second draw `VF` is 1
exactly when a lit sprite pixel lands on a pixel that was unlit before the first: that pixel is lit by the first draw and
erased by the second (a pixel lit before is erased by the first draw and lit again by the second). The place is the same when
the two coordinates, reduced, are: the first draw writes `VF`, which may be a coordinate. -/
def Obligations.DrawTwiceRestores : Prop :=
  ∀ (s t u : State) (x y n : Nibble), exec (.drwVxVyN x y n) s = .next t →
    (t.getV x).toNat % 64 = (s.getV x).toNat % 64 → (t.getV y).toNat % 32 = (s.getV y).toNat % 32 →
    exec (.drwVxVyN x y n) t = .next u →
    (∀ (px : Fin 64) (py : Fin 32), u.pixel px.val py.val = s.pixel px.val py.val) ∧
    ((∃ (px : Fin 64) (py : Fin 32), spriteLit s x y n px py ∧ s.pixel px.val py.val = false) → u.getV 0xF#4 = 1#8) ∧
    ((¬ ∃ (px : Fin 64) (py : Fin 32), spriteLit s x y n px py ∧ s.pixel px.val py.val = false) → u.getV 0xF#4 = 0#8)

/-! ### Keypad and timers -/

/-- R230, R231: `SKP` and `SKNP` skip on the level of key `V[x]`, whatever the keypad is. -/
def Obligations.KeySkipsTestLevel : Prop :=
  ∀ (s : State) (x : Nibble), (s.getV x).toNat ≤ 15 →
    RunsAs (.skpVx x) (0xE09E + 0x100 * x.toNat) s
      (s.pc.toNat + if s.env.keypad.toNat / 2 ^ (s.getV x).toNat % 2 = 1 then 4 else 2) (OnlyChanges ∅ s) ∧
    RunsAs (.sknpVx x) (0xE0A1 + 0x100 * x.toNat) s
      (s.pc.toNat + if s.env.keypad.toNat / 2 ^ (s.getV x).toNat % 2 = 1 then 2 else 4) (OnlyChanges ∅ s)

/-- R255, the spec's own decision D4: `SKP` and `SKNP` fault when `V[x] > 15`, before anything else is checked, and with no other
key index. -/
def Obligations.KeyIndexPastFifteenFaults : Prop :=
  ∀ (s : State) (x : Nibble),
    ((∃ a w, exec (.skpVx x) s = .fault (.keyIndexOutOfRange a w)) ↔ 15 < (s.getV x).toNat) ∧
    (15 < (s.getV x).toNat →
      exec (.skpVx x) s = .fault (.keyIndexOutOfRange s.pc (BitVec.ofNat 16 (0xE09E + 0x100 * x.toNat)))) ∧
    ((∃ a w, exec (.sknpVx x) s = .fault (.keyIndexOutOfRange a w)) ↔ 15 < (s.getV x).toNat) ∧
    (15 < (s.getV x).toNat →
      exec (.sknpVx x) s = .fault (.keyIndexOutOfRange s.pc (BitVec.ofNat 16 (0xE0A1 + 0x100 * x.toNat))))

/-- R233, the spec's own decision D5 on which key: `LD Vx, K` with no key down answers the state it was in; with a key down it writes the index of a key that is down. -/
def Obligations.WaitKeyReexecutesOrCompletes : Prop :=
  ∀ (s : State) (x : Nibble),
    (s.env.keypad = 0#16 → exec (.ldVxK x) s = .next s) ∧
    (s.env.keypad ≠ 0#16 →
      RunsAs (.ldVxK x) (0xF00A + 0x100 * x.toNat) s (s.pc.toNat + 2) (fun t =>
        (t.getV x).toNat ≤ 15 ∧ s.env.keypad.toNat / 2 ^ (t.getV x).toNat % 2 = 1 ∧ OnlyChanges {Part.reg x} s t))

/-- R233, D5: every key that is down is a choice `LD Vx, K` may make. -/
def Obligations.EveryKeyDownMayBeChosen : Prop :=
  ∀ (s : State) (x : Nibble) (k : Fin 16), s.env.keypad.toNat / 2 ^ k.val % 2 = 1 → s.pc.toNat + 2 ≤ 0xFFF →
    ∃ (pick : Nat) (t : State),
      exec (.ldVxK x) { s with env := { s.env with keyPick := pick } } = .next t ∧ (t.getV x).toNat = k.val

/-- R232, R234, R235: `LD Vx, DT`, `LD DT, Vx` and `LD ST, Vx`. -/
def Obligations.TimerLoads : Prop :=
  ∀ (s : State) (x : Nibble),
    RunsAs (.ldVxDt x) (0xF007 + 0x100 * x.toNat) s (s.pc.toNat + 2) (fun t =>
      t.getV x = s.dt ∧ OnlyChanges {Part.reg x} s t) ∧
    RunsAs (.ldDtVx x) (0xF015 + 0x100 * x.toNat) s (s.pc.toNat + 2) (fun t =>
      t.dt = s.getV x ∧ OnlyChanges {Part.dt} s t) ∧
    RunsAs (.ldStVx x) (0xF018 + 0x100 * x.toNat) s (s.pc.toNat + 2) (fun t =>
      t.st = s.getV x ∧ OnlyChanges {Part.st} s t)

/-! ### Rules about the whole machine -/

/-- R21: `VF` changes only by the six flag writers, by an instruction whose destination field is 15, and by `LD VF, [I]`; the six
leave it 0 or 1. -/
def Obligations.FlagRegisterWriters : Prop :=
  ∀ (i : Instr) (s t : State), exec i s = .next t →
    match i with
    | .addVxVy _ _ => (t.getV 0xF#4).toNat ≤ 1
    | .subVxVy _ _ => (t.getV 0xF#4).toNat ≤ 1
    | .shrVxVy _ _ => (t.getV 0xF#4).toNat ≤ 1
    | .subnVxVy _ _ => (t.getV 0xF#4).toNat ≤ 1
    | .shlVxVy _ _ => (t.getV 0xF#4).toNat ≤ 1
    | .drwVxVyN _ _ _ => (t.getV 0xF#4).toNat ≤ 1
    | .ldVxKk x _ => x ≠ 0xF#4 → t.getV 0xF#4 = s.getV 0xF#4
    | .addVxKk x _ => x ≠ 0xF#4 → t.getV 0xF#4 = s.getV 0xF#4
    | .ldVxVy x _ => x ≠ 0xF#4 → t.getV 0xF#4 = s.getV 0xF#4
    | .orVxVy x _ => x ≠ 0xF#4 → t.getV 0xF#4 = s.getV 0xF#4
    | .andVxVy x _ => x ≠ 0xF#4 → t.getV 0xF#4 = s.getV 0xF#4
    | .xorVxVy x _ => x ≠ 0xF#4 → t.getV 0xF#4 = s.getV 0xF#4
    | .rndVxKk x _ => x ≠ 0xF#4 → t.getV 0xF#4 = s.getV 0xF#4
    | .ldVxDt x => x ≠ 0xF#4 → t.getV 0xF#4 = s.getV 0xF#4
    | .ldVxK x => x ≠ 0xF#4 → t.getV 0xF#4 = s.getV 0xF#4
    | .ldVxMemI x => x ≠ 0xF#4 → t.getV 0xF#4 = s.getV 0xF#4
    | _ => t.getV 0xF#4 = s.getV 0xF#4

/-- R25, R26, R28, R29, R34: who writes what. Only `LD I`, `LD F` and `ADD I` write `I`; only `CALL` and `RET` change `SP` and only
`CALL` the stack; only `LD DT` and `LD ST` write the timers; only `CLS` and `DRW` write the framebuffer. -/
def Obligations.SpecialStateWriters : Prop :=
  ∀ (i : Instr) (s t : State), exec i s = .next t →
    (t.i = s.i ∨ (∃ nnn, i = .ldINnn nnn) ∨ (∃ x, i = .ldFVx x) ∨ ∃ x, i = .addIVx x) ∧
    (t.sp = s.sp ∨ i = .ret ∨ ∃ nnn, i = .callNnn nnn) ∧
    (t.stack = s.stack ∨ ∃ nnn, i = .callNnn nnn) ∧
    (t.dt = s.dt ∨ ∃ x, i = .ldDtVx x) ∧
    (t.st = s.st ∨ ∃ x, i = .ldStVx x) ∧
    (t.fb = s.fb ∨ i = .cls ∨ ∃ x y n, i = .drwVxVyN x y n)

/-- R60: only `LD B, Vx` and `LD [I], Vx` write memory, and only the bytes from `I` up to their last offset. -/
def Obligations.MemoryWriters : Prop :=
  ∀ (i : Instr) (s t : State) (a : Addr), exec i s = .next t → t.readByte a ≠ s.readByte a →
    (∃ x, i = .ldBVx x ∧ s.i.toNat ≤ a.toNat ∧ a.toNat ≤ s.i.toNat + 2) ∨
    (∃ x, i = .ldMemIVx x ∧ s.i.toNat ≤ a.toNat ∧ a.toNat ≤ s.i.toNat + x.toNat)

/-- R60, R139: no instruction but `LD B`, `LD [I]`, `LD Vx, [I]` and `DRW` touches memory: executed on a memory with any one byte
changed, each of the others answers the same, with that byte changed. A skipped word is so neither fetched nor decoded. -/
def Obligations.MemoryIsUnreadByOthers : Prop :=
  ∀ (i : Instr) (s : State) (a : Addr) (b : Byte),
    (∀ x, i ≠ .ldBVx x) → (∀ x, i ≠ .ldMemIVx x) → (∀ x, i ≠ .ldVxMemI x) → (∀ x y n, i ≠ .drwVxVyN x y n) →
    exec i (s.writeByte a b) = mapNext (fun t => t.writeByte a b) (exec i s)

/-- R35: the keypad is read only by `SKP`, `SKNP` and `LD Vx, K`: with any other keypad, every other instruction answers the same,
with that keypad; and no instruction at all, those three included, writes it. -/
def Obligations.KeypadIsReadByThreeOnly : Prop :=
  (∀ (i : Instr) (s : State) (keys : BitVec 16),
    (∀ x, i ≠ .skpVx x) → (∀ x, i ≠ .sknpVx x) → (∀ x, i ≠ .ldVxK x) →
    exec i (s.setKeypad keys) = mapNext (fun t => t.setKeypad keys) (exec i s)) ∧
  ∀ (i : Instr) (s t : State), exec i s = .next t → t.env.keypad = s.env.keypad

/-- R29: no instruction reads `ST`: with any other `ST`, every instruction but `LD ST, Vx` answers the same, with that `ST`, and
`LD ST, Vx` answers the same altogether. -/
def Obligations.SoundTimerIsUnread : Prop :=
  ∀ (i : Instr) (s : State) (b : Byte),
    ((∀ x, i ≠ .ldStVx x) → exec i (s.setSt b) = mapNext (fun t => t.setSt b) (exec i s)) ∧
    ((∃ x, i = .ldStVx x) → exec i (s.setSt b) = exec i s)
end

