-- ==== Sys2Proof/Laws/State.lean ====
section
/-! SUPPORT. The small lemmas of the state's updates: one per field per update, so that no later proof unfolds a record
update; and what a register or a byte reads as after each update. -/

namespace Sys2Proof.Machine

variable (s : State)

/-! ### `setV` -/

@[simp] theorem State.setV_v (x : Nibble) (b : Byte) : (s.setV x b).v = s.v.set x.toNat b x.isLt := rfl
@[simp] theorem State.setV_i (x : Nibble) (b : Byte) : (s.setV x b).i = s.i := rfl
@[simp] theorem State.setV_pc (x : Nibble) (b : Byte) : (s.setV x b).pc = s.pc := rfl
@[simp] theorem State.setV_sp (x : Nibble) (b : Byte) : (s.setV x b).sp = s.sp := rfl
@[simp] theorem State.setV_stack (x : Nibble) (b : Byte) : (s.setV x b).stack = s.stack := rfl
@[simp] theorem State.setV_dt (x : Nibble) (b : Byte) : (s.setV x b).dt = s.dt := rfl
@[simp] theorem State.setV_st (x : Nibble) (b : Byte) : (s.setV x b).st = s.st := rfl
@[simp] theorem State.setV_mem (x : Nibble) (b : Byte) : (s.setV x b).mem = s.mem := rfl
@[simp] theorem State.setV_fb (x : Nibble) (b : Byte) : (s.setV x b).fb = s.fb := rfl
@[simp] theorem State.setV_halted (x : Nibble) (b : Byte) : (s.setV x b).halted = s.halted := rfl
@[simp] theorem State.setV_fault (x : Nibble) (b : Byte) : (s.setV x b).fault = s.fault := rfl
@[simp] theorem State.setV_font (x : Nibble) (b : Byte) : (s.setV x b).font = s.font := rfl
@[simp] theorem State.setV_env (x : Nibble) (b : Byte) : (s.setV x b).env = s.env := rfl

/-! ### `setRegs` -/

@[simp] theorem State.setRegs_v (v : Vector Byte 16) : (s.setRegs v).v = v := rfl
@[simp] theorem State.setRegs_i (v : Vector Byte 16) : (s.setRegs v).i = s.i := rfl
@[simp] theorem State.setRegs_pc (v : Vector Byte 16) : (s.setRegs v).pc = s.pc := rfl
@[simp] theorem State.setRegs_sp (v : Vector Byte 16) : (s.setRegs v).sp = s.sp := rfl
@[simp] theorem State.setRegs_stack (v : Vector Byte 16) : (s.setRegs v).stack = s.stack := rfl
@[simp] theorem State.setRegs_dt (v : Vector Byte 16) : (s.setRegs v).dt = s.dt := rfl
@[simp] theorem State.setRegs_st (v : Vector Byte 16) : (s.setRegs v).st = s.st := rfl
@[simp] theorem State.setRegs_mem (v : Vector Byte 16) : (s.setRegs v).mem = s.mem := rfl
@[simp] theorem State.setRegs_fb (v : Vector Byte 16) : (s.setRegs v).fb = s.fb := rfl
@[simp] theorem State.setRegs_halted (v : Vector Byte 16) : (s.setRegs v).halted = s.halted := rfl
@[simp] theorem State.setRegs_fault (v : Vector Byte 16) : (s.setRegs v).fault = s.fault := rfl
@[simp] theorem State.setRegs_font (v : Vector Byte 16) : (s.setRegs v).font = s.font := rfl
@[simp] theorem State.setRegs_env (v : Vector Byte 16) : (s.setRegs v).env = s.env := rfl

/-! ### `setPc` -/

@[simp] theorem State.setPc_v (a : Addr) : (s.setPc a).v = s.v := rfl
@[simp] theorem State.setPc_i (a : Addr) : (s.setPc a).i = s.i := rfl
@[simp] theorem State.setPc_pc (a : Addr) : (s.setPc a).pc = a := rfl
@[simp] theorem State.setPc_sp (a : Addr) : (s.setPc a).sp = s.sp := rfl
@[simp] theorem State.setPc_stack (a : Addr) : (s.setPc a).stack = s.stack := rfl
@[simp] theorem State.setPc_dt (a : Addr) : (s.setPc a).dt = s.dt := rfl
@[simp] theorem State.setPc_st (a : Addr) : (s.setPc a).st = s.st := rfl
@[simp] theorem State.setPc_mem (a : Addr) : (s.setPc a).mem = s.mem := rfl
@[simp] theorem State.setPc_fb (a : Addr) : (s.setPc a).fb = s.fb := rfl
@[simp] theorem State.setPc_halted (a : Addr) : (s.setPc a).halted = s.halted := rfl
@[simp] theorem State.setPc_fault (a : Addr) : (s.setPc a).fault = s.fault := rfl
@[simp] theorem State.setPc_font (a : Addr) : (s.setPc a).font = s.font := rfl
@[simp] theorem State.setPc_env (a : Addr) : (s.setPc a).env = s.env := rfl

/-! ### `setSp` -/

@[simp] theorem State.setSp_v (n : Fin 17) : (s.setSp n).v = s.v := rfl
@[simp] theorem State.setSp_i (n : Fin 17) : (s.setSp n).i = s.i := rfl
@[simp] theorem State.setSp_pc (n : Fin 17) : (s.setSp n).pc = s.pc := rfl
@[simp] theorem State.setSp_sp (n : Fin 17) : (s.setSp n).sp = n := rfl
@[simp] theorem State.setSp_stack (n : Fin 17) : (s.setSp n).stack = s.stack := rfl
@[simp] theorem State.setSp_dt (n : Fin 17) : (s.setSp n).dt = s.dt := rfl
@[simp] theorem State.setSp_st (n : Fin 17) : (s.setSp n).st = s.st := rfl
@[simp] theorem State.setSp_mem (n : Fin 17) : (s.setSp n).mem = s.mem := rfl
@[simp] theorem State.setSp_fb (n : Fin 17) : (s.setSp n).fb = s.fb := rfl
@[simp] theorem State.setSp_halted (n : Fin 17) : (s.setSp n).halted = s.halted := rfl
@[simp] theorem State.setSp_fault (n : Fin 17) : (s.setSp n).fault = s.fault := rfl
@[simp] theorem State.setSp_font (n : Fin 17) : (s.setSp n).font = s.font := rfl
@[simp] theorem State.setSp_env (n : Fin 17) : (s.setSp n).env = s.env := rfl

/-! ### `setStack` -/

@[simp] theorem State.setStack_v (k : Fin 16) (r : Addr) : (s.setStack k r).v = s.v := rfl
@[simp] theorem State.setStack_i (k : Fin 16) (r : Addr) : (s.setStack k r).i = s.i := rfl
@[simp] theorem State.setStack_pc (k : Fin 16) (r : Addr) : (s.setStack k r).pc = s.pc := rfl
@[simp] theorem State.setStack_sp (k : Fin 16) (r : Addr) : (s.setStack k r).sp = s.sp := rfl
@[simp] theorem State.setStack_stack (k : Fin 16) (r : Addr) : (s.setStack k r).stack = s.stack.set k.val r k.isLt := rfl
@[simp] theorem State.setStack_dt (k : Fin 16) (r : Addr) : (s.setStack k r).dt = s.dt := rfl
@[simp] theorem State.setStack_st (k : Fin 16) (r : Addr) : (s.setStack k r).st = s.st := rfl
@[simp] theorem State.setStack_mem (k : Fin 16) (r : Addr) : (s.setStack k r).mem = s.mem := rfl
@[simp] theorem State.setStack_fb (k : Fin 16) (r : Addr) : (s.setStack k r).fb = s.fb := rfl
@[simp] theorem State.setStack_halted (k : Fin 16) (r : Addr) : (s.setStack k r).halted = s.halted := rfl
@[simp] theorem State.setStack_fault (k : Fin 16) (r : Addr) : (s.setStack k r).fault = s.fault := rfl
@[simp] theorem State.setStack_font (k : Fin 16) (r : Addr) : (s.setStack k r).font = s.font := rfl
@[simp] theorem State.setStack_env (k : Fin 16) (r : Addr) : (s.setStack k r).env = s.env := rfl

/-! ### `setI` -/

@[simp] theorem State.setI_v (w : Word) : (s.setI w).v = s.v := rfl
@[simp] theorem State.setI_i (w : Word) : (s.setI w).i = w := rfl
@[simp] theorem State.setI_pc (w : Word) : (s.setI w).pc = s.pc := rfl
@[simp] theorem State.setI_sp (w : Word) : (s.setI w).sp = s.sp := rfl
@[simp] theorem State.setI_stack (w : Word) : (s.setI w).stack = s.stack := rfl
@[simp] theorem State.setI_dt (w : Word) : (s.setI w).dt = s.dt := rfl
@[simp] theorem State.setI_st (w : Word) : (s.setI w).st = s.st := rfl
@[simp] theorem State.setI_mem (w : Word) : (s.setI w).mem = s.mem := rfl
@[simp] theorem State.setI_fb (w : Word) : (s.setI w).fb = s.fb := rfl
@[simp] theorem State.setI_halted (w : Word) : (s.setI w).halted = s.halted := rfl
@[simp] theorem State.setI_fault (w : Word) : (s.setI w).fault = s.fault := rfl
@[simp] theorem State.setI_font (w : Word) : (s.setI w).font = s.font := rfl
@[simp] theorem State.setI_env (w : Word) : (s.setI w).env = s.env := rfl

/-! ### `setDt` -/

@[simp] theorem State.setDt_v (b : Byte) : (s.setDt b).v = s.v := rfl
@[simp] theorem State.setDt_i (b : Byte) : (s.setDt b).i = s.i := rfl
@[simp] theorem State.setDt_pc (b : Byte) : (s.setDt b).pc = s.pc := rfl
@[simp] theorem State.setDt_sp (b : Byte) : (s.setDt b).sp = s.sp := rfl
@[simp] theorem State.setDt_stack (b : Byte) : (s.setDt b).stack = s.stack := rfl
@[simp] theorem State.setDt_dt (b : Byte) : (s.setDt b).dt = b := rfl
@[simp] theorem State.setDt_st (b : Byte) : (s.setDt b).st = s.st := rfl
@[simp] theorem State.setDt_mem (b : Byte) : (s.setDt b).mem = s.mem := rfl
@[simp] theorem State.setDt_fb (b : Byte) : (s.setDt b).fb = s.fb := rfl
@[simp] theorem State.setDt_halted (b : Byte) : (s.setDt b).halted = s.halted := rfl
@[simp] theorem State.setDt_fault (b : Byte) : (s.setDt b).fault = s.fault := rfl
@[simp] theorem State.setDt_font (b : Byte) : (s.setDt b).font = s.font := rfl
@[simp] theorem State.setDt_env (b : Byte) : (s.setDt b).env = s.env := rfl

/-! ### `setSt` -/

@[simp] theorem State.setSt_v (b : Byte) : (s.setSt b).v = s.v := rfl
@[simp] theorem State.setSt_i (b : Byte) : (s.setSt b).i = s.i := rfl
@[simp] theorem State.setSt_pc (b : Byte) : (s.setSt b).pc = s.pc := rfl
@[simp] theorem State.setSt_sp (b : Byte) : (s.setSt b).sp = s.sp := rfl
@[simp] theorem State.setSt_stack (b : Byte) : (s.setSt b).stack = s.stack := rfl
@[simp] theorem State.setSt_dt (b : Byte) : (s.setSt b).dt = s.dt := rfl
@[simp] theorem State.setSt_st (b : Byte) : (s.setSt b).st = b := rfl
@[simp] theorem State.setSt_mem (b : Byte) : (s.setSt b).mem = s.mem := rfl
@[simp] theorem State.setSt_fb (b : Byte) : (s.setSt b).fb = s.fb := rfl
@[simp] theorem State.setSt_halted (b : Byte) : (s.setSt b).halted = s.halted := rfl
@[simp] theorem State.setSt_fault (b : Byte) : (s.setSt b).fault = s.fault := rfl
@[simp] theorem State.setSt_font (b : Byte) : (s.setSt b).font = s.font := rfl
@[simp] theorem State.setSt_env (b : Byte) : (s.setSt b).env = s.env := rfl

/-! ### `setFb` -/

@[simp] theorem State.setFb_v (f : Frame) : (s.setFb f).v = s.v := rfl
@[simp] theorem State.setFb_i (f : Frame) : (s.setFb f).i = s.i := rfl
@[simp] theorem State.setFb_pc (f : Frame) : (s.setFb f).pc = s.pc := rfl
@[simp] theorem State.setFb_sp (f : Frame) : (s.setFb f).sp = s.sp := rfl
@[simp] theorem State.setFb_stack (f : Frame) : (s.setFb f).stack = s.stack := rfl
@[simp] theorem State.setFb_dt (f : Frame) : (s.setFb f).dt = s.dt := rfl
@[simp] theorem State.setFb_st (f : Frame) : (s.setFb f).st = s.st := rfl
@[simp] theorem State.setFb_mem (f : Frame) : (s.setFb f).mem = s.mem := rfl
@[simp] theorem State.setFb_fb (f : Frame) : (s.setFb f).fb = f := rfl
@[simp] theorem State.setFb_halted (f : Frame) : (s.setFb f).halted = s.halted := rfl
@[simp] theorem State.setFb_fault (f : Frame) : (s.setFb f).fault = s.fault := rfl
@[simp] theorem State.setFb_font (f : Frame) : (s.setFb f).font = s.font := rfl
@[simp] theorem State.setFb_env (f : Frame) : (s.setFb f).env = s.env := rfl

/-! ### `writeByte` -/

@[simp] theorem State.writeByte_v (a : Addr) (b : Byte) : (s.writeByte a b).v = s.v := rfl
@[simp] theorem State.writeByte_i (a : Addr) (b : Byte) : (s.writeByte a b).i = s.i := rfl
@[simp] theorem State.writeByte_pc (a : Addr) (b : Byte) : (s.writeByte a b).pc = s.pc := rfl
@[simp] theorem State.writeByte_sp (a : Addr) (b : Byte) : (s.writeByte a b).sp = s.sp := rfl
@[simp] theorem State.writeByte_stack (a : Addr) (b : Byte) : (s.writeByte a b).stack = s.stack := rfl
@[simp] theorem State.writeByte_dt (a : Addr) (b : Byte) : (s.writeByte a b).dt = s.dt := rfl
@[simp] theorem State.writeByte_st (a : Addr) (b : Byte) : (s.writeByte a b).st = s.st := rfl
@[simp] theorem State.writeByte_mem (a : Addr) (b : Byte) : (s.writeByte a b).mem = Memory.write s.font s.mem a.toNat b := rfl
@[simp] theorem State.writeByte_fb (a : Addr) (b : Byte) : (s.writeByte a b).fb = s.fb := rfl
@[simp] theorem State.writeByte_halted (a : Addr) (b : Byte) : (s.writeByte a b).halted = s.halted := rfl
@[simp] theorem State.writeByte_fault (a : Addr) (b : Byte) : (s.writeByte a b).fault = s.fault := rfl
@[simp] theorem State.writeByte_font (a : Addr) (b : Byte) : (s.writeByte a b).font = s.font := rfl
@[simp] theorem State.writeByte_env (a : Addr) (b : Byte) : (s.writeByte a b).env = s.env := rfl

/-! ### `takeRandom` -/

@[simp] theorem State.takeRandom_v : s.takeRandom.v = s.v := rfl
@[simp] theorem State.takeRandom_i : s.takeRandom.i = s.i := rfl
@[simp] theorem State.takeRandom_pc : s.takeRandom.pc = s.pc := rfl
@[simp] theorem State.takeRandom_sp : s.takeRandom.sp = s.sp := rfl
@[simp] theorem State.takeRandom_stack : s.takeRandom.stack = s.stack := rfl
@[simp] theorem State.takeRandom_dt : s.takeRandom.dt = s.dt := rfl
@[simp] theorem State.takeRandom_st : s.takeRandom.st = s.st := rfl
@[simp] theorem State.takeRandom_mem : s.takeRandom.mem = s.mem := rfl
@[simp] theorem State.takeRandom_fb : s.takeRandom.fb = s.fb := rfl
@[simp] theorem State.takeRandom_halted : s.takeRandom.halted = s.halted := rfl
@[simp] theorem State.takeRandom_fault : s.takeRandom.fault = s.fault := rfl
@[simp] theorem State.takeRandom_font : s.takeRandom.font = s.font := rfl
@[simp] theorem State.takeRandom_env : s.takeRandom.env = { s.env with rng := s.env.rng.tail, draws := s.env.draws + 1 } := rfl

/-! ### `halt` -/

@[simp] theorem State.halt_v (f : Fault) : (s.halt f).v = s.v := rfl
@[simp] theorem State.halt_i (f : Fault) : (s.halt f).i = s.i := rfl
@[simp] theorem State.halt_pc (f : Fault) : (s.halt f).pc = s.pc := rfl
@[simp] theorem State.halt_sp (f : Fault) : (s.halt f).sp = s.sp := rfl
@[simp] theorem State.halt_stack (f : Fault) : (s.halt f).stack = s.stack := rfl
@[simp] theorem State.halt_dt (f : Fault) : (s.halt f).dt = s.dt := rfl
@[simp] theorem State.halt_st (f : Fault) : (s.halt f).st = s.st := rfl
@[simp] theorem State.halt_mem (f : Fault) : (s.halt f).mem = s.mem := rfl
@[simp] theorem State.halt_fb (f : Fault) : (s.halt f).fb = s.fb := rfl
@[simp] theorem State.halt_halted (f : Fault) : (s.halt f).halted = true := rfl
@[simp] theorem State.halt_fault (f : Fault) : (s.halt f).fault = some f := rfl
@[simp] theorem State.halt_font (f : Fault) : (s.halt f).font = s.font := rfl
@[simp] theorem State.halt_env (f : Fault) : (s.halt f).env = s.env := rfl

/-! ### `tick` -/

@[simp] theorem State.tick_v : s.tick.v = s.v := rfl
@[simp] theorem State.tick_i : s.tick.i = s.i := rfl
@[simp] theorem State.tick_pc : s.tick.pc = s.pc := rfl
@[simp] theorem State.tick_sp : s.tick.sp = s.sp := rfl
@[simp] theorem State.tick_stack : s.tick.stack = s.stack := rfl
@[simp] theorem State.tick_dt : s.tick.dt = tickDown 1 s.dt := rfl
@[simp] theorem State.tick_st : s.tick.st = tickDown 1 s.st := rfl
@[simp] theorem State.tick_mem : s.tick.mem = s.mem := rfl
@[simp] theorem State.tick_fb : s.tick.fb = s.fb := rfl
@[simp] theorem State.tick_halted : s.tick.halted = s.halted := rfl
@[simp] theorem State.tick_fault : s.tick.fault = s.fault := rfl
@[simp] theorem State.tick_font : s.tick.font = s.font := rfl
@[simp] theorem State.tick_env : s.tick.env = s.env := rfl

/-! ### `setKeypad` -/

@[simp] theorem State.setKeypad_v (keys : BitVec 16) : (s.setKeypad keys).v = s.v := rfl
@[simp] theorem State.setKeypad_i (keys : BitVec 16) : (s.setKeypad keys).i = s.i := rfl
@[simp] theorem State.setKeypad_pc (keys : BitVec 16) : (s.setKeypad keys).pc = s.pc := rfl
@[simp] theorem State.setKeypad_sp (keys : BitVec 16) : (s.setKeypad keys).sp = s.sp := rfl
@[simp] theorem State.setKeypad_stack (keys : BitVec 16) : (s.setKeypad keys).stack = s.stack := rfl
@[simp] theorem State.setKeypad_dt (keys : BitVec 16) : (s.setKeypad keys).dt = s.dt := rfl
@[simp] theorem State.setKeypad_st (keys : BitVec 16) : (s.setKeypad keys).st = s.st := rfl
@[simp] theorem State.setKeypad_mem (keys : BitVec 16) : (s.setKeypad keys).mem = s.mem := rfl
@[simp] theorem State.setKeypad_fb (keys : BitVec 16) : (s.setKeypad keys).fb = s.fb := rfl
@[simp] theorem State.setKeypad_halted (keys : BitVec 16) : (s.setKeypad keys).halted = s.halted := rfl
@[simp] theorem State.setKeypad_fault (keys : BitVec 16) : (s.setKeypad keys).fault = s.fault := rfl
@[simp] theorem State.setKeypad_font (keys : BitVec 16) : (s.setKeypad keys).font = s.font := rfl
@[simp] theorem State.setKeypad_env (keys : BitVec 16) : (s.setKeypad keys).env = { s.env with keypad := keys } := rfl

/-! ### `setKeyPick` -/

@[simp] theorem State.setKeyPick_v (pick : Nat) : (s.setKeyPick pick).v = s.v := rfl
@[simp] theorem State.setKeyPick_i (pick : Nat) : (s.setKeyPick pick).i = s.i := rfl
@[simp] theorem State.setKeyPick_pc (pick : Nat) : (s.setKeyPick pick).pc = s.pc := rfl
@[simp] theorem State.setKeyPick_sp (pick : Nat) : (s.setKeyPick pick).sp = s.sp := rfl
@[simp] theorem State.setKeyPick_stack (pick : Nat) : (s.setKeyPick pick).stack = s.stack := rfl
@[simp] theorem State.setKeyPick_dt (pick : Nat) : (s.setKeyPick pick).dt = s.dt := rfl
@[simp] theorem State.setKeyPick_st (pick : Nat) : (s.setKeyPick pick).st = s.st := rfl
@[simp] theorem State.setKeyPick_mem (pick : Nat) : (s.setKeyPick pick).mem = s.mem := rfl
@[simp] theorem State.setKeyPick_fb (pick : Nat) : (s.setKeyPick pick).fb = s.fb := rfl
@[simp] theorem State.setKeyPick_halted (pick : Nat) : (s.setKeyPick pick).halted = s.halted := rfl
@[simp] theorem State.setKeyPick_fault (pick : Nat) : (s.setKeyPick pick).fault = s.fault := rfl
@[simp] theorem State.setKeyPick_font (pick : Nat) : (s.setKeyPick pick).font = s.font := rfl
@[simp] theorem State.setKeyPick_env (pick : Nat) : (s.setKeyPick pick).env = { s.env with keyPick := pick } := rfl

/-! ### `hostTurn` -/

@[simp] theorem State.hostTurn_v : s.hostTurn.v = s.v := rfl
@[simp] theorem State.hostTurn_i : s.hostTurn.i = s.i := rfl
@[simp] theorem State.hostTurn_pc : s.hostTurn.pc = s.pc := rfl
@[simp] theorem State.hostTurn_sp : s.hostTurn.sp = s.sp := rfl
@[simp] theorem State.hostTurn_stack : s.hostTurn.stack = s.stack := rfl
@[simp] theorem State.hostTurn_dt : s.hostTurn.dt = tickDown s.nextTurn.ticks s.dt := rfl
@[simp] theorem State.hostTurn_st : s.hostTurn.st = tickDown s.nextTurn.ticks s.st := rfl
@[simp] theorem State.hostTurn_mem : s.hostTurn.mem = s.mem := rfl
@[simp] theorem State.hostTurn_fb : s.hostTurn.fb = s.fb := rfl
@[simp] theorem State.hostTurn_halted : s.hostTurn.halted = s.halted := rfl
@[simp] theorem State.hostTurn_fault : s.hostTurn.fault = s.fault := rfl
@[simp] theorem State.hostTurn_font : s.hostTurn.font = s.font := rfl
@[simp] theorem State.hostTurn_env : s.hostTurn.env = { s.env with
      keypad := s.nextTurn.keypad
      keyPick := s.nextTurn.keyPick
      script := s.env.script.tail
      turns := s.env.turns + 1 } := rfl

/-! ### Registers after an update -/

/-- A register reads as what was last written to it (R20). -/
theorem State.getV_setV (x y : Nibble) (b : Byte) : (s.setV x b).getV y = if y = x then b else s.getV y := by
  by_cases h : y = x
  · subst h; simp [State.getV]
  · have h' : x.toNat ≠ y.toNat := fun e => h (BitVec.eq_of_toNat_eq e.symm)
    simp [State.getV, h, Vector.getElem_set_ne, h']

@[simp] theorem State.getV_setV_self (x : Nibble) (b : Byte) : (s.setV x b).getV x = b := by
  simp [State.getV_setV]

theorem State.getV_setV_ne (x y : Nibble) (b : Byte) (h : y ≠ x) : (s.setV x b).getV y = s.getV y := by
  simp [State.getV_setV, h]

/-- A register after all sixteen are set. -/
theorem State.getV_setRegs (x : Nibble) (v : Vector Byte 16) : (s.setRegs v).getV x = v[x.toNat]'x.isLt := rfl

@[simp] theorem State.getV_setPc (y : Nibble) (a : Addr) : (s.setPc a).getV y = s.getV y := rfl
@[simp] theorem State.getV_setSp (y : Nibble) (n : Fin 17) : (s.setSp n).getV y = s.getV y := rfl
@[simp] theorem State.getV_setStack (y : Nibble) (k : Fin 16) (r : Addr) : (s.setStack k r).getV y = s.getV y := rfl
@[simp] theorem State.getV_setI (y : Nibble) (w : Word) : (s.setI w).getV y = s.getV y := rfl
@[simp] theorem State.getV_setDt (y : Nibble) (b : Byte) : (s.setDt b).getV y = s.getV y := rfl
@[simp] theorem State.getV_setSt (y : Nibble) (b : Byte) : (s.setSt b).getV y = s.getV y := rfl
@[simp] theorem State.getV_setFb (y : Nibble) (f : Frame) : (s.setFb f).getV y = s.getV y := rfl
@[simp] theorem State.getV_writeByte (y : Nibble) (a : Addr) (b : Byte) : (s.writeByte a b).getV y = s.getV y := rfl
@[simp] theorem State.getV_takeRandom (y : Nibble) : s.takeRandom.getV y = s.getV y := rfl
@[simp] theorem State.getV_halt (y : Nibble) (f : Fault) : (s.halt f).getV y = s.getV y := rfl
@[simp] theorem State.getV_tick (y : Nibble) : s.tick.getV y = s.getV y := rfl
@[simp] theorem State.getV_setKeypad (y : Nibble) (keys : BitVec 16) : (s.setKeypad keys).getV y = s.getV y := rfl
@[simp] theorem State.getV_setKeyPick (y : Nibble) (pick : Nat) : (s.setKeyPick pick).getV y = s.getV y := rfl
@[simp] theorem State.getV_hostTurn (y : Nibble) : s.hostTurn.getV y = s.getV y := rfl

/-! ### Bytes after an update -/

@[simp] theorem State.readByte_setV (m : Addr) (x : Nibble) (b : Byte) : (s.setV x b).readByte m = s.readByte m := rfl
@[simp] theorem State.readByte_setRegs (m : Addr) (v : Vector Byte 16) : (s.setRegs v).readByte m = s.readByte m := rfl
@[simp] theorem State.readByte_setPc (m : Addr) (a : Addr) : (s.setPc a).readByte m = s.readByte m := rfl
@[simp] theorem State.readByte_setSp (m : Addr) (n : Fin 17) : (s.setSp n).readByte m = s.readByte m := rfl
@[simp] theorem State.readByte_setStack (m : Addr) (k : Fin 16) (r : Addr) : (s.setStack k r).readByte m = s.readByte m := rfl
@[simp] theorem State.readByte_setI (m : Addr) (w : Word) : (s.setI w).readByte m = s.readByte m := rfl
@[simp] theorem State.readByte_setDt (m : Addr) (b : Byte) : (s.setDt b).readByte m = s.readByte m := rfl
@[simp] theorem State.readByte_setSt (m : Addr) (b : Byte) : (s.setSt b).readByte m = s.readByte m := rfl
@[simp] theorem State.readByte_setFb (m : Addr) (f : Frame) : (s.setFb f).readByte m = s.readByte m := rfl
@[simp] theorem State.readByte_takeRandom (m : Addr) : s.takeRandom.readByte m = s.readByte m := rfl
@[simp] theorem State.readByte_halt (m : Addr) (f : Fault) : (s.halt f).readByte m = s.readByte m := rfl
@[simp] theorem State.readByte_tick (m : Addr) : s.tick.readByte m = s.readByte m := rfl
@[simp] theorem State.readByte_setKeypad (m : Addr) (keys : BitVec 16) : (s.setKeypad keys).readByte m = s.readByte m := rfl
@[simp] theorem State.readByte_setKeyPick (m : Addr) (pick : Nat) : (s.setKeyPick pick).readByte m = s.readByte m := rfl
@[simp] theorem State.readByte_hostTurn (m : Addr) : s.hostTurn.readByte m = s.readByte m := rfl

/-! ### Pixels after an update -/

@[simp] theorem State.pixel_setV (px py : Nat) (x : Nibble) (b : Byte) : (s.setV x b).pixel px py = s.pixel px py := rfl
@[simp] theorem State.pixel_setRegs (px py : Nat) (v : Vector Byte 16) : (s.setRegs v).pixel px py = s.pixel px py := rfl
@[simp] theorem State.pixel_setPc (px py : Nat) (a : Addr) : (s.setPc a).pixel px py = s.pixel px py := rfl
@[simp] theorem State.pixel_setSp (px py : Nat) (n : Fin 17) : (s.setSp n).pixel px py = s.pixel px py := rfl
@[simp] theorem State.pixel_setStack (px py : Nat) (k : Fin 16) (r : Addr) : (s.setStack k r).pixel px py = s.pixel px py := rfl
@[simp] theorem State.pixel_setI (px py : Nat) (w : Word) : (s.setI w).pixel px py = s.pixel px py := rfl
@[simp] theorem State.pixel_setDt (px py : Nat) (b : Byte) : (s.setDt b).pixel px py = s.pixel px py := rfl
@[simp] theorem State.pixel_setSt (px py : Nat) (b : Byte) : (s.setSt b).pixel px py = s.pixel px py := rfl
@[simp] theorem State.pixel_writeByte (px py : Nat) (a : Addr) (b : Byte) : (s.writeByte a b).pixel px py = s.pixel px py := rfl
@[simp] theorem State.pixel_takeRandom (px py : Nat) : s.takeRandom.pixel px py = s.pixel px py := rfl
@[simp] theorem State.pixel_halt (px py : Nat) (f : Fault) : (s.halt f).pixel px py = s.pixel px py := rfl
@[simp] theorem State.pixel_tick (px py : Nat) : s.tick.pixel px py = s.pixel px py := rfl
@[simp] theorem State.pixel_setKeypad (px py : Nat) (keys : BitVec 16) : (s.setKeypad keys).pixel px py = s.pixel px py := rfl
@[simp] theorem State.pixel_setKeyPick (px py : Nat) (pick : Nat) : (s.setKeyPick pick).pixel px py = s.pixel px py := rfl
@[simp] theorem State.pixel_hostTurn (px py : Nat) : s.hostTurn.pixel px py = s.pixel px py := rfl
@[simp] theorem State.pixel_setFb (px py : Nat) (f : Frame) : (s.setFb f).pixel px py = pixelAt f px py := rfl

end Sys2Proof.Machine
end

