-- ==== Sys2Proof/Laws/Memory.lean ====
section
/-! SUPPORT. Memory reads after writes (spec/20_memory.md R66), and the canonical form, which every memory operation keeps. -/

namespace Sys2Proof.Machine

variable (font : Font)

/-! ### Reads after writes -/

theorem Memory.read_filter_self (m : Memory) (a : Nat) :
    Memory.read font (m.filter (fun c => c.1 != a)) a = Memory.unlisted font a := by
  induction m with
  | nil => rfl
  | cons c cs ih =>
    by_cases h : c.1 = a
    · simpa [h] using ih
    · simp [h, Memory.read, ih]

theorem Memory.read_filter_ne (m : Memory) (a a' : Nat) (h : a' ≠ a) :
    Memory.read font (m.filter (fun c => c.1 != a)) a' = Memory.read font m a' := by
  induction m with
  | nil => rfl
  | cons c cs ih =>
    by_cases hc : c.1 = a
    · have : c.1 ≠ a' := fun e => h (e.symm.trans hc)
      simp only [hc, bne_self_eq_false, Bool.false_eq_true, not_false_eq_true, List.filter_cons_of_neg, Memory.read]
      rw [ih, if_neg (fun e => h e.symm)]
    · simp [hc, Memory.read, ih]

theorem Memory.read_insert_self (m : Memory) (a : Nat) (b : Byte) (h : ∀ c ∈ m, c.1 ≠ a) :
    Memory.read font (Memory.insert m a b) a = b := by
  induction m with
  | nil => simp [Memory.insert, Memory.read]
  | cons c cs ih =>
    have hc : c.1 ≠ a := h c (by simp)
    have ih := ih (fun d hd => h d (by simp [hd]))
    unfold Memory.insert
    split
    · simp [Memory.read]
    · simp [Memory.read, hc, ih]

theorem Memory.read_insert_ne (m : Memory) (a a' : Nat) (b : Byte) (h : a' ≠ a) :
    Memory.read font (Memory.insert m a b) a' = Memory.read font m a' := by
  induction m with
  | nil => simp [Memory.insert, Memory.read, h.symm]
  | cons c cs ih =>
    unfold Memory.insert
    split
    · simp [Memory.read, h.symm]
    · simp [Memory.read, ih]

/-- What a memory reads as after a write: the byte written at its address, and elsewhere what it read as before. -/
theorem Memory.read_write (m : Memory) (a a' : Nat) (b : Byte) :
    Memory.read font (Memory.write font m a b) a' = if a' = a then b else Memory.read font m a' := by
  unfold Memory.write
  by_cases h : a' = a
  · subst h
    split
    · rename_i hb; simp [Memory.read_filter_self, hb]
    · rw [if_pos rfl]; exact Memory.read_insert_self font _ _ _ (by simp)
  · rw [if_neg h]
    split
    · exact Memory.read_filter_ne font m a a' h
    · rw [Memory.read_insert_ne font _ a a' b h, Memory.read_filter_ne font m a a' h]

/-- The byte at `a'` after a write at `a`. -/
theorem State.readByte_writeByte (s : State) (a a' : Addr) (b : Byte) :
    (s.writeByte a b).readByte a' = if a' = a then b else s.readByte a' := by
  simp only [State.readByte, State.writeByte_mem, State.writeByte_font, Memory.read_write, BitVec.toNat_eq]

/-! ### The canonical form -/

/-- The canonical form as a statement: every cell is inside memory and differs from what its address reads as unlisted, and
addresses rise strictly. -/
theorem Memory.wf_iff (m : Memory) :
    Memory.wf font m = true ↔
      (∀ c ∈ m, c.1 < 4096 ∧ c.2 ≠ Memory.unlisted font c.1) ∧ m.Pairwise (fun c d => c.1 < d.1) := by
  induction m with
  | nil => simp [Memory.wf]
  | cons c cs ih =>
    simp only [Memory.wf, Bool.and_eq_true, decide_eq_true_eq, bne_iff_ne, List.all_eq_true, ih, List.mem_cons,
      forall_eq_or_imp, List.pairwise_cons]
    tauto

theorem Memory.mem_insert (m : Memory) (a : Nat) (b : Byte) (c : Host.Cell) :
    c ∈ Memory.insert m a b ↔ c = (a, b) ∨ c ∈ m := by
  induction m with
  | nil => simp [Memory.insert]
  | cons d ds ih =>
    unfold Memory.insert
    split
    · simp
    · simp [ih, or_left_comm]

theorem Memory.pairwise_insert (m : Memory) (a : Nat) (b : Byte) (h : m.Pairwise (fun c d => c.1 < d.1))
    (ha : ∀ c ∈ m, c.1 ≠ a) : (Memory.insert m a b).Pairwise (fun c d => c.1 < d.1) := by
  induction m with
  | nil => simp [Memory.insert]
  | cons c cs ih =>
    rw [List.pairwise_cons] at h
    unfold Memory.insert
    split
    · rename_i hlt
      refine List.pairwise_cons.2 ⟨fun d hd => ?_, List.pairwise_cons.2 h⟩
      rcases List.mem_cons.1 hd with rfl | hd
      · exact hlt
      · exact hlt.trans (h.1 d hd)
    · rename_i hge
      refine List.pairwise_cons.2 ⟨fun d hd => ?_, ih h.2 (fun d hd => ha d (by simp [hd]))⟩
      rcases (Memory.mem_insert cs a b d).1 hd with rfl | hd
      · have := ha c (by simp)
        show c.1 < a
        omega
      · exact h.1 d hd

/-- A write inside memory keeps the canonical form. -/
theorem Memory.wf_write (m : Memory) (a : Nat) (b : Byte) (ha : a < 4096) (h : Memory.wf font m = true) :
    Memory.wf font (Memory.write font m a b) = true := by
  rw [Memory.wf_iff] at h ⊢
  have hf : (∀ c ∈ m.filter (fun c => c.1 != a), c.1 < 4096 ∧ c.2 ≠ Memory.unlisted font c.1) :=
    fun c hc => h.1 c (List.mem_of_mem_filter hc)
  unfold Memory.write
  split
  · exact ⟨hf, h.2.filter _⟩
  · rename_i hb
    refine ⟨fun c hc => ?_, Memory.pairwise_insert _ a b (h.2.filter _) (by simp)⟩
    rcases (Memory.mem_insert _ a b c).1 hc with rfl | hc
    · exact ⟨ha, hb⟩
    · exact hf c hc

/-- `writeByte` keeps the canonical form. -/
theorem State.wf_writeByte (s : State) (a : Addr) (b : Byte) (h : Memory.wf s.font s.mem = true) :
    Memory.wf (s.writeByte a b).font (s.writeByte a b).mem = true :=
  Memory.wf_write s.font s.mem a.toNat b a.isLt h

/-- Reset memory is in canonical form. -/
theorem State.wf_reset : Memory.wf State.reset.font State.reset.mem = true := rfl

/-! ### `writeBytes` -/

/-- `writeBytes` changes memory alone. -/
theorem State.writeBytes_eq (s : State) (base : Nat) (bs : List Byte) :
    s.writeBytes base bs = { s with mem := (s.writeBytes base bs).mem } := by
  induction bs generalizing s base with
  | nil => rfl
  | cons b rest ih =>
    show (s.writeByte _ b).writeBytes (base + 1) rest = _
    rw [ih]
    rfl

/-- `writeBytes` keeps the canonical form. -/
theorem State.wf_writeBytes (s : State) (base : Nat) (bs : List Byte) (h : Memory.wf s.font s.mem = true) :
    Memory.wf s.font (s.writeBytes base bs).mem = true := by
  induction bs generalizing s base with
  | nil => exact h
  | cons b rest ih => exact ih (s.writeByte (BitVec.ofNat 12 base) b) (base + 1) (State.wf_writeByte s _ b h)

/-- The bytes after `writeBytes` at addresses that stay inside memory: the byte written at each of them, and every other byte as
before. -/
theorem State.readByte_writeBytes (s : State) (base : Nat) (bs : List Byte) (a : Addr)
    (h : base + bs.length ≤ 4096) :
    (s.writeBytes base bs).readByte a =
      if hk : base ≤ a.toNat ∧ a.toNat < base + bs.length then bs[a.toNat - base]'(by omega) else s.readByte a := by
  induction bs generalizing s base with
  | nil =>
    rw [dif_neg (by simp only [List.length_nil]; omega)]
    rfl
  | cons b rest ih =>
    rw [List.length_cons] at h
    show ((s.writeByte (BitVec.ofNat 12 base) b).writeBytes (base + 1) rest).readByte a = _
    rw [ih _ _ (by omega), State.readByte_writeByte]
    have hb : (BitVec.ofNat 12 base).toNat = base := by simp [BitVec.toNat_ofNat]; omega
    have hbase : a = BitVec.ofNat 12 base ↔ a.toNat = base := by rw [BitVec.toNat_eq, hb]
    by_cases h1 : a.toNat = base
    · rw [dif_neg (by omega), if_pos (hbase.2 h1), dif_pos (by simp only [List.length_cons]; omega)]
      simp [h1]
    · rw [if_neg (fun e => h1 (hbase.1 e))]
      by_cases h2 : base + 1 ≤ a.toNat ∧ a.toNat < base + 1 + rest.length
      · rw [dif_pos h2, dif_pos (by simp only [List.length_cons]; omega)]
        have : a.toNat - base = (a.toNat - (base + 1)) + 1 := by omega
        simp only [this, List.getElem_cons_succ]
      · rw [dif_neg h2, dif_neg (by simp only [List.length_cons]; omega)]

end Sys2Proof.Machine
end

