-- ==== Sys2Proof/Laws/Ops.lean ====
section
/-! SUPPORT. One lemma per shared operation that says everything it can do: the end of an instruction, a skip, a checked
transfer, the stack, the timers, the keys. -/

namespace Sys2Proof.Machine

variable {s t : State} {op : Word}

/-! ### The end of an instruction -/

/-- A jump answers a next state exactly when the new `pc` is an address, and then it is the state given with that `pc`. -/
theorem jump_next_iff {new : Nat} :
    jump op new s = .next t ↔ new ≤ 0xFFF ∧ t = s.setPc (BitVec.ofNat 12 new) := by
  unfold jump raise
  split <;> simp_all [eq_comm]

/-- A jump faults exactly when the new `pc` exceeds 0xFFF, with the fault `PcOutOfRange` of the instruction. -/
theorem jump_fault_iff {new : Nat} {f : Fault} :
    jump op new s = .fault f ↔ 0xFFF < new ∧ f = .pcOutOfRange s.pc (some op) := by
  unfold jump raise Fault.pcOutOfRangeAt
  split
  · simp; omega
  · simp only [Host.Outcome.fault.injEq, eq_comm (a := f)]
    constructor
    · exact fun h => ⟨by omega, h⟩
    · exact fun h => h.2

theorem jump_ne_refused {new : Nat} {r : Refusal} : jump op new s ≠ .refused r := by
  unfold jump raise; split <;> simp

/-- A jump to an address. -/
theorem jump_of_le {new : Nat} (h : new ≤ 0xFFF) : jump op new s = .next (s.setPc (BitVec.ofNat 12 new)) :=
  jump_next_iff.2 ⟨h, rfl⟩

/-- A jump past the last address. -/
theorem jump_of_gt {new : Nat} (h : 0xFFF < new) : jump op new s = .fault (.pcOutOfRange s.pc (some op)) :=
  jump_fault_iff.2 ⟨h, rfl⟩

/-- The `pc` a jump to an address sets. -/
theorem toNat_pc_of_le {new : Nat} (h : new ≤ 0xFFF) : (BitVec.ofNat 12 new).toNat = new := by
  simp [BitVec.toNat_ofNat]; omega

theorem advance_next_iff : advance op s = .next t ↔ s.pc.toNat + 2 ≤ 0xFFF ∧
    t = s.setPc (BitVec.ofNat 12 (s.pc.toNat + 2)) := jump_next_iff

theorem advance_fault_iff {f : Fault} :
    advance op s = .fault f ↔ 0xFFF < s.pc.toNat + 2 ∧ f = .pcOutOfRange s.pc (some op) := jump_fault_iff

theorem advance_ne_refused {r : Refusal} : advance op s ≠ .refused r := jump_ne_refused

theorem skipIf_next_iff {c : Bool} : skipIf op c s = .next t ↔ (s.pc.toNat + if c then 4 else 2) ≤ 0xFFF ∧
    t = s.setPc (BitVec.ofNat 12 (s.pc.toNat + if c then 4 else 2)) := jump_next_iff

theorem skipIf_fault_iff {c : Bool} {f : Fault} :
    skipIf op c s = .fault f ↔ 0xFFF < (s.pc.toNat + if c then 4 else 2) ∧ f = .pcOutOfRange s.pc (some op) :=
  jump_fault_iff

theorem skipIf_ne_refused {c : Bool} {r : Refusal} : skipIf op c s ≠ .refused r := jump_ne_refused

/-- `VF` is written last: the result is in `V[x]` unless `x = 15`, the flag is in `VF`. -/
theorem writeResultAndFlag_next_iff {x : Nibble} {r f : Byte} : writeResultAndFlag op x r f s = .next t ↔
    s.pc.toNat + 2 ≤ 0xFFF ∧ t = ((s.setV x r).setV vf f).setPc (BitVec.ofNat 12 (s.pc.toNat + 2)) :=
  jump_next_iff

theorem writeResultAndFlag_fault_iff {x : Nibble} {r f : Byte} {e : Fault} : writeResultAndFlag op x r f s = .fault e ↔
    0xFFF < s.pc.toNat + 2 ∧ e = .pcOutOfRange s.pc (some op) := jump_fault_iff

/-! ### A transfer through `[I]` -/

/-- A checked transfer runs when its last address is inside memory, and faults before anything else when it is not. -/
theorem checkedThroughI_of_le {k : Nat} {run : State → Host.Outcome State Fault Refusal} (h : s.i.toNat + k ≤ 4095) :
    checkedThroughI op k s run = run s := by simp [checkedThroughI, h]

theorem checkedThroughI_of_gt {k : Nat} {run : State → Host.Outcome State Fault Refusal} (h : 4095 < s.i.toNat + k) :
    checkedThroughI op k s run = .fault (.memoryFault s.pc op) := by
  have : ¬ s.i.toNat + k ≤ 4095 := by omega
  simp [checkedThroughI, this, raise]

/-! ### The stack -/

/-- `push` on a stack with room. -/
theorem push_of_lt {r : Addr} (h : s.sp.val < 16) :
    s.push r = some ((s.setStack ⟨s.sp.val, h⟩ r).setSp ⟨s.sp.val + 1, Nat.succ_lt_succ h⟩) := by
  simp [State.push, h]

/-- `push` on a full stack. -/
theorem push_of_full {r : Addr} (h : s.sp.val = 16) : s.push r = none := by simp [State.push, h]

/-- `pop` on a stack that holds `k + 1` entries. -/
theorem pop_of_succ {k : Fin 16} (h : s.sp.val = k.val + 1) :
    s.pop = some (s.setSp k.castSucc, s.stack[k]) := by
  have : s.sp = k.succ := Fin.ext (by simpa using h)
  rcases k with ⟨k, hk⟩
  unfold State.pop
  rw [this]
  rfl

/-- `pop` on an empty stack. -/
theorem pop_of_zero (h : s.sp.val = 0) : s.pop = none := by
  have : s.sp = ⟨0, by decide⟩ := Fin.ext h
  simp [State.pop, this]

/-! ### Timers -/

/-- A timer after `n` TICKs, as a number. -/
@[simp] theorem tickDown_toNat (n : Nat) (b : Byte) : (tickDown n b).toNat = b.toNat - n := by
  have := b.isLt
  simp [tickDown, BitVec.toNat_ofNat]; omega

/-- TICKs add up. -/
theorem tickDown_tickDown (m n : Nat) (b : Byte) : tickDown m (tickDown n b) = tickDown (n + m) b := by
  apply BitVec.eq_of_toNat_eq; simp [Nat.sub_sub]

/-! ### Keys -/

/-- Which keys are down. -/
theorem mem_keysDown {keypad : BitVec 16} {k : Nat} : k ∈ keysDown keypad ↔ k < 16 ∧ keypad.getLsbD k = true := by
  simp [keysDown, keyDown]

/-- No key is chosen exactly when none is down. -/
theorem chosenKey_eq_none_iff {keypad : BitVec 16} {pick : Nat} : chosenKey keypad pick = none ↔ keypad = 0#16 := by
  rw [chosenKey, List.getElem?_eq_none_iff]
  constructor
  · intro h
    have h0 : keysDown keypad = [] := by
      by_contra hne
      exact absurd (Nat.mod_lt pick (List.length_pos_iff.2 hne)) (by omega)
    apply BitVec.eq_of_getLsbD_eq
    intro k hk
    have : k ∉ keysDown keypad := by simp [h0]
    simpa [mem_keysDown, hk] using this
  · rintro rfl
    have : keysDown 0#16 = [] := by decide
    simp [this]

/-- A key that is chosen is down. -/
theorem chosenKey_down {keypad : BitVec 16} {pick k : Nat} (h : chosenKey keypad pick = some k) :
    k < 16 ∧ keypad.getLsbD k = true := mem_keysDown.1 (List.mem_of_getElem? h)

/-- Every key that is down is chosen by some pick. -/
theorem chosenKey_surjective {keypad : BitVec 16} {k : Nat} (hk : k < 16) (h : keypad.getLsbD k = true) :
    ∃ pick, chosenKey keypad pick = some k := by
  obtain ⟨p, hp, he⟩ := List.getElem_of_mem (mem_keysDown.2 ⟨hk, h⟩)
  exact ⟨p, by rw [chosenKey, Nat.mod_eq_of_lt hp, List.getElem?_eq_getElem hp, he]⟩

/-! ### One pixel -/

/-- Inverting one pixel of the screen: that pixel is inverted, every other is as it was. -/
theorem pixelAt_xorPixel {fb : Frame} {x y px py : Nat} (hx : x < 64) (hy : y < 32) :
    pixelAt (xorPixel fb x y).1 px py = (pixelAt fb px py ^^ decide (px = x ∧ py = y)) := by
  by_cases hp : py < 32
  · by_cases e : py = y
    · subst e
      simp [pixelAt, xorPixel, hy, BitVec.getLsbD_twoPow, hx, eq_comm]
    · simp [pixelAt, xorPixel, hy, hp, Vector.getElem_set_ne, e, Ne.symm e]
  · have : py ≠ y := by omega
    simp [pixelAt, hp, this]

/-- What `drawPixel` does to each pixel of the screen, and to the collision. -/
theorem pixelAt_drawPixel {lit : Bool} {acc : Frame × Bool} {x y px py : Nat} (hy : y < 32) (hpx : px < 64) :
    pixelAt (drawPixel lit x y acc).1 px py = (pixelAt acc.1 px py ^^ (lit && decide (px = x ∧ py = y))) ∧
    (drawPixel lit x y acc).2 = (acc.2 || (lit && decide (x < 64) && pixelAt acc.1 x y)) := by
  unfold drawPixel
  split
  · rename_i h
    have : ¬ x < 64 := by omega
    have hne : ¬ (px = x ∧ py = y) := by omega
    simp [this, hne]
  · split
    · rename_i hx hl
      have hx' : x < 64 := by omega
      refine ⟨?_, ?_⟩
      · simpa [hl] using pixelAt_xorPixel hx' hy
      · simp [hl, hx', xorPixel]
    · rename_i hl
      simp [hl]

end Sys2Proof.Machine
end

