-- ==== Sys2Proof/Laws/Display.lean ====
section
/-! SUPPORT. What the sprite rasterizer does to each pixel and to the collision (spec/43_display.md R212 to R214), said once for
a row and once for a sprite. -/

namespace Sys2Proof.Machine

open Classical in
/-- What drawing the pixels at the columns `l` of a sprite row does to each pixel of the screen, and to the collision. -/
theorem foldl_drawPixel (row : Byte) (x0 y : Nat) (hy : y < 32) (l : List Nat) (hl : l.Nodup) (acc : Frame × Bool) :
    (∀ px py, px < 64 → pixelAt (l.foldl (fun acc b => drawPixel (spriteBit row b) (x0 + b) y acc) acc).1 px py =
      (pixelAt acc.1 px py ^^ decide (py = y ∧ ∃ b ∈ l, px = x0 + b ∧ spriteBit row b = true))) ∧
    (l.foldl (fun acc b => drawPixel (spriteBit row b) (x0 + b) y acc) acc).2 =
      (acc.2 || decide (∃ b ∈ l, x0 + b < 64 ∧ spriteBit row b = true ∧ pixelAt acc.1 (x0 + b) y = true)) := by
  induction l generalizing acc with
  | nil => simp
  | cons c l ih =>
    obtain ⟨hc, hl⟩ := List.nodup_cons.1 hl
    rw [List.foldl_cons]
    obtain ⟨i1, i2⟩ := ih hl (drawPixel (spriteBit row c) (x0 + c) y acc)
    refine ⟨fun px py hpx => ?_, ?_⟩
    · rw [i1 px py hpx, (pixelAt_drawPixel hy hpx).1]
      by_cases h1 : py = y
      · by_cases h2 : px = x0 + c
        · have : ∀ b ∈ l, ¬ px = x0 + b := fun b hb e => hc (by
            have e9 : b = c := by omega
            rwa [e9] at hb)
          have e : ¬ ∃ b ∈ l, px = x0 + b ∧ spriteBit row b = true := fun ⟨b, hb, e, _⟩ => this b hb e
          have e2 : (∃ b ∈ c :: l, px = x0 + b ∧ spriteBit row b = true) ↔ spriteBit row c = true := by
            constructor
            · rintro ⟨b, hb, e3, e4⟩
              rcases List.mem_cons.1 hb with rfl | hb
              · exact e4
              · exact absurd e3 (this b hb)
            · intro h; exact ⟨c, by simp, h2, h⟩
          simp only [e2, h1, e]; simp [h2]
        · simp [h1, h2]
      · simp [h1]
    · rw [i2, (pixelAt_drawPixel (px := 0) (py := 0) hy (by decide)).2]
      have hp : ∀ b ∈ l, x0 + b < 64 → pixelAt (drawPixel (spriteBit row c) (x0 + c) y acc).1 (x0 + b) y = pixelAt acc.1 (x0 + b) y := by
        intro b hb hlt
        rw [(pixelAt_drawPixel hy hlt).1]
        have : ¬ x0 + b = x0 + c := fun e => hc (by
            have e9 : b = c := by omega
            rwa [e9] at hb)
        simp [show ¬ b = c by omega]
      have e3 : (∃ b ∈ l, x0 + b < 64 ∧ spriteBit row b = true ∧ pixelAt (drawPixel (spriteBit row c) (x0 + c) y acc).1 (x0 + b) y = true) ↔
        (∃ b ∈ l, x0 + b < 64 ∧ spriteBit row b = true ∧ pixelAt acc.1 (x0 + b) y = true) := by
        constructor
        · rintro ⟨b, hb, h1, h2, h3⟩; exact ⟨b, hb, h1, h2, by rw [← hp b hb h1]; exact h3⟩
        · rintro ⟨b, hb, h1, h2, h3⟩; exact ⟨b, hb, h1, h2, by rw [hp b hb h1]; exact h3⟩
      simp only [e3]; rw [Bool.or_assoc]
      congr 1
      rw [Bool.eq_iff_iff]
      simp only [Bool.or_eq_true, Bool.and_eq_true, decide_eq_true_iff, List.mem_cons, exists_eq_or_imp]
      constructor
      · rintro (⟨⟨a, b⟩, c⟩ | h)
        · exact .inl ⟨b, a, c⟩
        · exact .inr h
      · rintro (⟨a, b, c⟩ | h)
        · exact .inl ⟨⟨b, a⟩, c⟩
        · exact .inr h

open Classical in
/-- What drawing the rows `l` of a sprite does to each pixel of the screen, and to the collision. -/
theorem foldl_drawRow (s : State) (x0 y0 : Nat) (l : List Nat) (hl : l.Nodup) (acc : Frame × Bool) :
    (∀ px py, px < 64 → py < 32 → pixelAt (l.foldl (fun acc r => if 32 ≤ y0 + r then acc else drawRow (spriteRow s r) x0 (y0 + r) acc) acc).1 px py =
      (pixelAt acc.1 px py ^^ decide (∃ r ∈ l, py = y0 + r ∧ ∃ b, b < 8 ∧ px = x0 + b ∧ spriteBit (spriteRow s r) b = true))) ∧
    (l.foldl (fun acc r => if 32 ≤ y0 + r then acc else drawRow (spriteRow s r) x0 (y0 + r) acc) acc).2 =
      (acc.2 || decide (∃ r ∈ l, y0 + r < 32 ∧ ∃ b, b < 8 ∧ x0 + b < 64 ∧ spriteBit (spriteRow s r) b = true ∧ pixelAt acc.1 (x0 + b) (y0 + r) = true)) := by
  induction l generalizing acc with
  | nil => simp
  | cons c l ih =>
    obtain ⟨hc, hl⟩ := List.nodup_cons.1 hl
    rw [List.foldl_cons]
    obtain ⟨i1, i2⟩ := ih hl (if 32 ≤ y0 + c then acc else drawRow (spriteRow s c) x0 (y0 + c) acc)
    rcases Nat.lt_or_ge (y0 + c) 32 with h | h
    · have hn : ¬ 32 ≤ y0 + c := by omega
      rw [if_neg hn] at i1 i2 ⊢
      obtain ⟨r1, r2⟩ := foldl_drawPixel (spriteRow s c) x0 (y0 + c) h (List.range 8) List.nodup_range acc
      simp only [List.mem_range] at r1 r2
      refine ⟨fun px py hpx hpy => ?_, ?_⟩
      · rw [i1 px py hpx hpy]
        unfold drawRow
        rw [r1 px py hpx, Bool.xor_assoc]
        congr 1
        by_cases e : py = y0 + c
        · have : ¬ ∃ r ∈ l, py = y0 + r ∧ ∃ b, b < 8 ∧ px = x0 + b ∧ spriteBit (spriteRow s r) b = true := by
            rintro ⟨r, hr, e2, _⟩; exact hc (by
            have e9 : r = c := by omega
            rwa [e9] at hr)
          simp only [this, decide_false, Bool.xor_false]; rw [Bool.eq_iff_iff]; simp only [decide_eq_true_iff]
          constructor
          · rintro ⟨_, h⟩; exact ⟨c, by simp, e, h⟩
          · rintro ⟨r, hr, e2, h9⟩
            have : r = c := by omega
            subst this; exact ⟨e, h9⟩
        · simp only [e, false_and, decide_false, Bool.false_xor]; rw [Bool.eq_iff_iff]; simp only [decide_eq_true_iff]
          constructor
          · rintro ⟨r, hr, h⟩; exact ⟨r, by simp [hr], h⟩
          · rintro ⟨r, hr, e2, h⟩
            rcases List.mem_cons.1 hr with rfl | hr
            · exact absurd e2 e
            · exact ⟨r, hr, e2, h⟩
      · rw [i2]
        unfold drawRow
        rw [r2, Bool.or_assoc]
        congr 1
        have key : ∀ r ∈ l, ∀ b, x0 + b < 64 → pixelAt ((List.range 8).foldl (fun acc b => drawPixel (spriteBit (spriteRow s c) b) (x0 + b) (y0 + c) acc) acc).1 (x0 + b) (y0 + r) = pixelAt acc.1 (x0 + b) (y0 + r) := by
          intro r hr b hb
          rw [r1 _ _ hb]
          have : ¬ y0 + r = y0 + c := fun e => hc (by
            have e9 : r = c := by omega
            rwa [e9] at hr)
          simp [show ¬ r = c by omega]
        rw [Bool.eq_iff_iff]; simp only [Bool.or_eq_true, decide_eq_true_iff]
        constructor
        · rintro (⟨b, hb, h1, h2, h3⟩ | ⟨r, hr, h0, b, hb, h1, h2, h3⟩)
          · exact ⟨c, by simp, h, b, hb, h1, h2, h3⟩
          · rw [key r hr b h1] at h3; exact ⟨r, by simp [hr], h0, b, hb, h1, h2, h3⟩
        · rintro ⟨r, hr, h0, b, hb, h1, h2, h3⟩
          rcases List.mem_cons.1 hr with rfl | hr
          · exact .inl ⟨b, hb, h1, h2, h3⟩
          · exact .inr ⟨r, hr, h0, b, hb, h1, h2, by rw [key r hr b h1]; exact h3⟩
    · rw [if_pos h] at i1 i2 ⊢
      refine ⟨fun px py hpx hpy => ?_, ?_⟩
      · rw [i1 px py hpx hpy]; congr 1; rw [Bool.eq_iff_iff]; simp only [decide_eq_true_iff]
        constructor
        · rintro ⟨r, hr, h⟩; exact ⟨r, by simp [hr], h⟩
        · rintro ⟨r, hr, e2, h⟩
          rcases List.mem_cons.1 hr with rfl | hr
          · omega
          · exact ⟨r, hr, e2, h⟩
      · rw [i2]; congr 1; rw [Bool.eq_iff_iff]; simp only [decide_eq_true_iff]
        constructor
        · rintro ⟨r, hr, h⟩; exact ⟨r, by simp [hr], h⟩
        · rintro ⟨r, hr, e2, h⟩
          rcases List.mem_cons.1 hr with rfl | hr
          · omega
          · exact ⟨r, hr, e2, h⟩

/-- `drawSprite`: a pixel of the screen is inverted exactly when a lit pixel of one of the `n` rows falls on it. -/
theorem pixelAt_drawSprite (s : State) (x0 y0 n px py : Nat) (hx : px < 64) (hy : py < 32) :
    pixelAt (drawSprite s x0 y0 n).1 px py = true ↔
      Xor (pixelAt s.fb px py = true)
        (∃ r, r < n ∧ py = y0 + r ∧ ∃ b, b < 8 ∧ px = x0 + b ∧ spriteBit (spriteRow s r) b = true) := by
  have h := (foldl_drawRow s x0 y0 (List.range n) List.nodup_range (s.fb, false)).1 px py hx hy
  unfold drawSprite
  rw [h]
  simp only [List.mem_range]
  cases pixelAt s.fb px py <;> simp [Xor]

/-- `drawSprite` reports a collision exactly when a lit sprite pixel falls on a pixel of the screen that was lit. -/
theorem drawSprite_hit (s : State) (x0 y0 n : Nat) :
    (drawSprite s x0 y0 n).2 = true ↔
      ∃ r, r < n ∧ y0 + r < 32 ∧ ∃ b, b < 8 ∧ x0 + b < 64 ∧ spriteBit (spriteRow s r) b = true ∧
        pixelAt s.fb (x0 + b) (y0 + r) = true := by
  have h := (foldl_drawRow s x0 y0 (List.range n) List.nodup_range (s.fb, false)).2
  unfold drawSprite
  rw [h]
  simp only [List.mem_range, Bool.false_or, decide_eq_true_iff]

end Sys2Proof.Machine
end

