-- ==== Sys2Proof/Laws/Encoding.lean ====
section
/-! SUPPORT. The words the encoder lays out, as numbers, and the fields the decoder takes from a word (spec/30_encoding.md R91,
R92, R100). -/

namespace Sys2Proof

/-! ### Words as numbers -/

theorem or_eq_add {a b k : Nat} (h : b < 2 ^ k) : a * 2 ^ k ||| b = a * 2 ^ k + b := by
  rw [← Nat.shiftLeft_eq, Nat.shiftLeft_add_eq_or_of_lt h]

theorem or_4096 {a b : Nat} (h : b < 4096) : a * 4096 ||| b = a * 4096 + b := or_eq_add (k := 12) h

theorem or_256 {a b : Nat} (h : b < 256) : a * 256 ||| b = a * 256 + b := or_eq_add (k := 8) h

theorem or_16 {a b : Nat} (h : b < 16) : a * 16 ||| b = a * 16 + b := or_eq_add (k := 4) h

/-- A digit or a byte, widened to a word. -/
theorem toNat_setWidth16 {w : Nat} (a : BitVec w) (h : w ≤ 16) : (a.setWidth 16).toNat = a.toNat := by
  rw [BitVec.toNat_setWidth]
  exact Nat.mod_eq_of_lt (Nat.lt_of_lt_of_le a.isLt (Nat.pow_le_pow_right (by decide) h))

/-- A digit or a byte, widened and moved up. -/
theorem toNat_shifted {w : Nat} (a : BitVec w) (k : Nat) (h : w + k ≤ 16) :
    (a.setWidth 16 <<< k).toNat = a.toNat * 2 ^ k := by
  rw [BitVec.toNat_shiftLeft, toNat_setWidth16 a (by omega), Nat.shiftLeft_eq]
  refine Nat.mod_eq_of_lt (Nat.lt_of_lt_of_le ?_ (Nat.pow_le_pow_right (by decide) h))
  rw [Nat.pow_add]
  exact Nat.mul_lt_mul_of_pos_right a.isLt (Nat.two_pow_pos k)

theorem wordOfBytes_toNat (hi lo : Byte) : (wordOfBytes hi lo).toNat = 256 * hi.toNat + lo.toNat := by
  rw [wordOfBytes, BitVec.toNat_or, toNat_shifted hi 8 (by decide), toNat_setWidth16 lo (by decide)]
  show hi.toNat * 256 ||| lo.toNat = _
  rw [or_256 lo.isLt, Nat.mul_comm]

theorem wordNnn_toNat (h : Nibble) (nnn : Addr) : (wordNnn h nnn).toNat = 4096 * h.toNat + nnn.toNat := by
  rw [wordNnn, BitVec.toNat_or, toNat_shifted h 12 (by decide), toNat_setWidth16 nnn (by decide)]
  show h.toNat * 4096 ||| nnn.toNat = _
  rw [or_4096 nnn.isLt, Nat.mul_comm]

theorem wordXKk_toNat (h x : Nibble) (kk : Byte) :
    (wordXKk h x kk).toNat = 4096 * h.toNat + 256 * x.toNat + kk.toNat := by
  rw [wordXKk, BitVec.toNat_or, BitVec.toNat_or, toNat_shifted h 12 (by decide), toNat_shifted x 8 (by decide),
    toNat_setWidth16 kk (by decide)]
  show (h.toNat * 4096 ||| x.toNat * 256) ||| kk.toNat = _
  have hx := x.isLt
  rw [or_4096 (by omega), show h.toNat * 4096 + x.toNat * 256 = (h.toNat * 16 + x.toNat) * 256 by omega, or_256 kk.isLt]
  omega

theorem wordXYN_toNat (h x y n : Nibble) :
    (wordXYN h x y n).toNat = 4096 * h.toNat + 256 * x.toNat + 16 * y.toNat + n.toNat := by
  rw [wordXYN, BitVec.toNat_or, BitVec.toNat_or, BitVec.toNat_or, toNat_shifted h 12 (by decide),
    toNat_shifted x 8 (by decide), toNat_shifted y 4 (by decide), toNat_setWidth16 n (by decide)]
  show ((h.toNat * 4096 ||| x.toNat * 256) ||| y.toNat * 16) ||| n.toNat = _
  have hx := x.isLt
  have hy := y.isLt
  rw [or_4096 (by omega), show h.toNat * 4096 + x.toNat * 256 = (h.toNat * 16 + x.toNat) * 256 by omega,
    or_256 (by omega), show (h.toNat * 16 + x.toNat) * 256 + y.toNat * 16 =
      (h.toNat * 256 + x.toNat * 16 + y.toNat) * 16 by omega, or_16 n.isLt]
  omega

/-! ### Fields as numbers -/

theorem topDigit_toNat (op : Word) : (op.extractLsb' 12 4).toNat = op.toNat / 4096 := by
  have := op.isLt
  rw [BitVec.extractLsb'_toNat, Nat.shiftRight_eq_div_pow]
  omega

theorem fieldX_toNat (op : Word) : (fieldX op).toNat = op.toNat / 256 % 16 := by
  rw [fieldX, BitVec.extractLsb'_toNat, Nat.shiftRight_eq_div_pow]

theorem fieldY_toNat (op : Word) : (fieldY op).toNat = op.toNat / 16 % 16 := by
  rw [fieldY, BitVec.extractLsb'_toNat, Nat.shiftRight_eq_div_pow]

theorem fieldN_toNat (op : Word) : (fieldN op).toNat = op.toNat % 16 := by
  rw [fieldN, BitVec.extractLsb'_toNat, Nat.shiftRight_zero]

theorem fieldKk_toNat (op : Word) : (fieldKk op).toNat = op.toNat % 256 := by
  rw [fieldKk, BitVec.extractLsb'_toNat, Nat.shiftRight_zero]

theorem fieldNnn_toNat (op : Word) : (fieldNnn op).toNat = op.toNat % 4096 := by
  rw [fieldNnn, BitVec.extractLsb'_toNat, Nat.shiftRight_zero]

end Sys2Proof
end

