-- ==== Sys2Proof/Laws/PerInstr.lean ====
section
/-! SUPPORT. The family MaskMatch: every instruction's word is in its own row of the opcode map (spec/30_encoding.md R95). -/

namespace Sys2Proof.Laws.MaskMatch

/-- The word of the instruction, under the mask of its row, is the match of its row (R95). -/
def Statement (i : Instr) : Prop := encode i &&& i.maskMatch.1 = i.maskMatch.2

/-- Under a mask of format NNN a word of that format is the match with the operand 0. -/
theorem maskNnn (h : Nibble) (nnn : Addr) : wordNnn h nnn &&& 0xF000#16 = wordNnn h 0#12 := by
  apply BitVec.eq_of_getLsbD_eq
  intro k hk
  interval_cases k <;> simp [wordNnn]

/-- Under the mask of its first digit a word of format XKK is the match with the operands 0. -/
theorem maskXKk (h x : Nibble) (kk : Byte) : wordXKk h x kk &&& 0xF000#16 = wordXKk h 0#4 0#8 := by
  apply BitVec.eq_of_getLsbD_eq
  intro k hk
  interval_cases k <;> simp [wordXKk]

/-- Under the mask of format X a word of that format is the match with the operand 0. -/
theorem maskX (h x : Nibble) (l : Byte) : wordXKk h x l &&& 0xF0FF#16 = wordXKk h 0#4 l := by
  apply BitVec.eq_of_getLsbD_eq
  intro k hk
  interval_cases k <;> simp [wordXKk]

/-- Under the mask of format XY a word of that format is the match with the operands 0. -/
theorem maskXY (h x y l : Nibble) : wordXYN h x y l &&& 0xF00F#16 = wordXYN h 0#4 0#4 l := by
  apply BitVec.eq_of_getLsbD_eq
  intro k hk
  interval_cases k <;> simp [wordXYN]

/-- Under the mask of its first digit a word of format XYN is the match with the operands 0. -/
theorem maskXYN (h x y n : Nibble) : wordXYN h x y n &&& 0xF000#16 = wordXYN h 0#4 0#4 0#4 := by
  apply BitVec.eq_of_getLsbD_eq
  intro k hk
  interval_cases k <;> simp [wordXYN]

theorem cls : Statement .cls := rfl
theorem ret : Statement .ret := rfl
theorem sysNnn (nnn : Addr) : Statement (.sysNnn nnn) := maskNnn _ _
theorem jpNnn (nnn : Addr) : Statement (.jpNnn nnn) := maskNnn _ _
theorem callNnn (nnn : Addr) : Statement (.callNnn nnn) := maskNnn _ _
theorem seVxKk (x : Nibble) (kk : Byte) : Statement (.seVxKk x kk) := maskXKk _ _ _
theorem sneVxKk (x : Nibble) (kk : Byte) : Statement (.sneVxKk x kk) := maskXKk _ _ _
theorem seVxVy (x y : Nibble) : Statement (.seVxVy x y) := maskXY _ _ _ _
theorem ldVxKk (x : Nibble) (kk : Byte) : Statement (.ldVxKk x kk) := maskXKk _ _ _
theorem addVxKk (x : Nibble) (kk : Byte) : Statement (.addVxKk x kk) := maskXKk _ _ _
theorem ldVxVy (x y : Nibble) : Statement (.ldVxVy x y) := maskXY _ _ _ _
theorem orVxVy (x y : Nibble) : Statement (.orVxVy x y) := maskXY _ _ _ _
theorem andVxVy (x y : Nibble) : Statement (.andVxVy x y) := maskXY _ _ _ _
theorem xorVxVy (x y : Nibble) : Statement (.xorVxVy x y) := maskXY _ _ _ _
theorem addVxVy (x y : Nibble) : Statement (.addVxVy x y) := maskXY _ _ _ _
theorem subVxVy (x y : Nibble) : Statement (.subVxVy x y) := maskXY _ _ _ _
theorem shrVxVy (x y : Nibble) : Statement (.shrVxVy x y) := maskXY _ _ _ _
theorem subnVxVy (x y : Nibble) : Statement (.subnVxVy x y) := maskXY _ _ _ _
theorem shlVxVy (x y : Nibble) : Statement (.shlVxVy x y) := maskXY _ _ _ _
theorem sneVxVy (x y : Nibble) : Statement (.sneVxVy x y) := maskXY _ _ _ _
theorem ldINnn (nnn : Addr) : Statement (.ldINnn nnn) := maskNnn _ _
theorem jpV0Nnn (nnn : Addr) : Statement (.jpV0Nnn nnn) := maskNnn _ _
theorem rndVxKk (x : Nibble) (kk : Byte) : Statement (.rndVxKk x kk) := maskXKk _ _ _
theorem drwVxVyN (x y n : Nibble) : Statement (.drwVxVyN x y n) := maskXYN _ _ _ _
theorem skpVx (x : Nibble) : Statement (.skpVx x) := maskX _ _ _
theorem sknpVx (x : Nibble) : Statement (.sknpVx x) := maskX _ _ _
theorem ldVxDt (x : Nibble) : Statement (.ldVxDt x) := maskX _ _ _
theorem ldVxK (x : Nibble) : Statement (.ldVxK x) := maskX _ _ _
theorem ldDtVx (x : Nibble) : Statement (.ldDtVx x) := maskX _ _ _
theorem ldStVx (x : Nibble) : Statement (.ldStVx x) := maskX _ _ _
theorem addIVx (x : Nibble) : Statement (.addIVx x) := maskX _ _ _
theorem ldFVx (x : Nibble) : Statement (.ldFVx x) := maskX _ _ _
theorem ldBVx (x : Nibble) : Statement (.ldBVx x) := maskX _ _ _
theorem ldMemIVx (x : Nibble) : Statement (.ldMemIVx x) := maskX _ _ _
theorem ldVxMemI (x : Nibble) : Statement (.ldVxMemI x) := maskX _ _ _

end Sys2Proof.Laws.MaskMatch
end

