-- ==== Sys2Proof/Laws/Spelling.lean ====
section
/-! SUPPORT. A spelling selects the instruction it spells (spec/30_encoding.md R115, R119), and what assembling a program can do
(R118). -/

namespace Sys2Proof

/-- A number that is the value of an operand of its width fits it. -/
theorem asmNum_toNat {w : Nat} (b : BitVec w) (mk : BitVec w → Instr) : asmNum w b.toNat mk = .ok (mk b) := by
  simp [asmNum, b.isLt]

/-- Assembling the spelling of a well-formed instruction gives that instruction. -/
theorem assembleInstr_spelling (i : Instr) (h : i.wellFormed = true) :
    assembleInstr i.spelling.1 i.spelling.2 = .ok i := by
  cases i
  case sysNnn nnn =>
    have h' : ¬ (nnn.toNat = 0x0E0 ∨ nnn.toNat = 0x0EE) := by
      simp only [Instr.wellFormed, Bool.and_eq_true, bne_iff_ne] at h
      rintro (e | e)
      · exact h.1 (BitVec.eq_of_toNat_eq e)
      · exact h.2 (BitVec.eq_of_toNat_eq e)
    simp only [Instr.spelling, assembleInstr, if_neg h', asmNum_toNat]
  all_goals first
    | rfl
    | exact asmNum_toNat _ _

/-- A statement that assembles emits as many bytes as the layout gives it. -/
theorem Statement.length_bytes {s : Statement} {bs : List Byte} (h : s.bytes = .ok bs) : bs.length = s.size := by
  cases s with
  | instr m ops =>
    simp only [Statement.bytes] at h
    split at h
    · cases h; rfl
    · cases h
  | byte n => simp only [Statement.bytes] at h; split at h <;> cases h; rfl
  | word n => simp only [Statement.bytes] at h; split at h <;> cases h; rfl
  | space n => cases h; exact List.length_replicate

/-- A program whose statements all assemble has an image of the size of its layout. -/
theorem length_imageBytes {p : List Statement} (h : statementErrors p = []) : (imageBytes p).length = imageSize p := by
  induction p with
  | nil => rfl
  | cons s rest ih =>
    simp only [statementErrors] at h
    rcases hb : s.bytes with e | bs
    · simp [hb] at h
    · simp only [hb] at h
      simp only [imageBytes, hb, List.length_append, Statement.length_bytes hb, ih h, imageSize, List.map_cons, List.sum_cons]

/-- Assembling answers a ROM exactly when no statement errs and the image is at most 3584 bytes, and then it is the image. -/
theorem assemble_ok_iff {p : List Statement} {rom : List Byte} :
    assemble p = .ok rom ↔ statementErrors p = [] ∧ imageSize p ≤ Config.romMax ∧ rom = imageBytes p := by
  unfold assemble asmErrors
  by_cases h : imageSize p ≤ Config.romMax <;> rcases he : statementErrors p with _ | ⟨e, es⟩ <;> simp [h, eq_comm]

end Sys2Proof
end

