-- ==== Sys2Proof/Laws/Step.lean ====
section
/-! SUPPORT. What a step can do, said once: the cases of an instruction that answers a next state, and the cases of a STEP. -/

namespace Sys2Proof.Machine

/-- What an instruction can do when it answers a next state: the state is `s` with the instruction's own writes made, and then its
new `pc`. Values that the instruction computes are left to the operation's own lemmas where no claim needs them. -/
theorem exec_next_cases {i : Instr} {s t : State} (h : exec i s = .next t) :
   (∃ s' , (∃ new, t = s'.setPc (BitVec.ofNat 12 new)) ∧ s'.pc = s.pc ∧
    match i with
    | .cls => s' = s.setFb (Vector.replicate 32 0#64)
    | .ret => ∃ n, s' = s.setSp n
    | .callNnn _ => ∃ k r n, s' = (s.setStack k r).setSp n
    | .ldVxKk x _ => ∃ b, s' = s.setV x b
    | .addVxKk x _ => ∃ b, s' = s.setV x b
    | .ldVxVy x _ => ∃ b, s' = s.setV x b
    | .orVxVy x _ => ∃ b, s' = s.setV x b
    | .andVxVy x _ => ∃ b, s' = s.setV x b
    | .xorVxVy x _ => ∃ b, s' = s.setV x b
    | .addVxVy x _ => ∃ b f, s' = (s.setV x b).setV vf (flagByte f)
    | .subVxVy x _ => ∃ b f, s' = (s.setV x b).setV vf (flagByte f)
    | .shrVxVy x _ => ∃ b f, s' = (s.setV x b).setV vf (flagByte f)
    | .subnVxVy x _ => ∃ b f, s' = (s.setV x b).setV vf (flagByte f)
    | .shlVxVy x _ => ∃ b f, s' = (s.setV x b).setV vf (flagByte f)
    | .ldINnn nnn => s' = s.setI (BitVec.ofNat 16 nnn.toNat)
    | .rndVxKk x _ => ∃ b, s' = s.takeRandom.setV x b
    | .drwVxVyN _ _ _ => ∃ g f, s' = (s.setFb g).setV vf (flagByte f)
    | .ldVxDt x => ∃ b, s' = s.setV x b
    | .ldVxK x => s' = s ∨ ∃ b, s' = s.setV x b
    | .ldDtVx _ => ∃ b, s' = s.setDt b
    | .ldStVx _ => ∃ b, s' = s.setSt b
    | .addIVx x => s' = s.setI (BitVec.ofNat 16 (s.i.toNat + (s.getV x).toNat))
    | .ldFVx x => s' = s.setI (glyphAddr (s.getV x))
    | .ldBVx x => s.i.toNat + 2 ≤ 4095 ∧ s' = s.writeBytes s.i.toNat (bcdDigits (s.getV x))
    | .ldMemIVx x => s.i.toNat + x.toNat ≤ 4095 ∧ s' = s.writeBytes s.i.toNat (regsUpTo s x)
    | .ldVxMemI x => s' = s.setRegs (loadedRegs s x)
    | _ => s' = s) := by
  cases i <;> dsimp only [exec] at h ⊢
  case cls => obtain ⟨_, h⟩ := advance_next_iff.1 h; exact ⟨_, ⟨_, h⟩, rfl, rfl⟩
  case ret =>
    unfold execRet at h
    rcases hs : s.pop with _ | ⟨u, r⟩
    · simp [hs, raise] at h
    · simp only [hs] at h
      obtain ⟨_, h⟩ := jump_next_iff.1 h
      have : ∃ n, u = s.setSp n := by
        unfold State.pop at hs
        split at hs
        · cases hs
        · simp at hs; exact ⟨_, hs.1.symm⟩
      obtain ⟨n, rfl⟩ := this
      exact ⟨_, ⟨_, h⟩, rfl, n, rfl⟩
  case callNnn nnn =>
    unfold execCallNnn at h
    unfold State.push at h
    by_cases hs : s.sp.val < 16
    · simp only [hs, dif_pos] at h
      split at h
      · obtain ⟨_, h⟩ := jump_next_iff.1 h
        exact ⟨_, ⟨_, h⟩, rfl, _, _, _, rfl⟩
      · simp [raise] at h
    · simp [hs, raise] at h
  case ldBVx x =>
    unfold execLdBVx checkedThroughI at h
    split at h
    · obtain ⟨_, h⟩ := advance_next_iff.1 h
      exact ⟨_, ⟨_, h⟩, by rw [s.writeBytes_eq], ‹_›, rfl⟩
    · cases h
  case ldMemIVx x =>
    unfold execLdMemIVx checkedThroughI at h
    split at h
    · obtain ⟨_, h⟩ := advance_next_iff.1 h
      exact ⟨_, ⟨_, h⟩, by rw [s.writeBytes_eq], ‹_›, rfl⟩
    · cases h
  case ldVxMemI x =>
    unfold execLdVxMemI checkedThroughI at h
    split at h
    · obtain ⟨_, h⟩ := advance_next_iff.1 h
      exact ⟨_, ⟨_, h⟩, rfl, rfl⟩
    · cases h
  case ldVxK x =>
    unfold execLdVxK at h
    split at h
    · obtain ⟨_, h⟩ := jump_next_iff.1 h
      exact ⟨_, ⟨_, h⟩, rfl, .inl rfl⟩
    · obtain ⟨_, h⟩ := advance_next_iff.1 h
      exact ⟨_, ⟨_, h⟩, rfl, .inr ⟨_, rfl⟩⟩
  case skpVx x =>
    unfold execSkpVx skipIfKey at h
    split at h
    · obtain ⟨_, h⟩ := jump_next_iff.1 h; exact ⟨_, ⟨_, h⟩, rfl, rfl⟩
    · cases h
  case sknpVx x =>
    unfold execSknpVx skipIfKey at h
    split at h
    · obtain ⟨_, h⟩ := jump_next_iff.1 h; exact ⟨_, ⟨_, h⟩, rfl, rfl⟩
    · cases h
  case drwVxVyN x y n =>
    exact ⟨_, ⟨_, (advance_next_iff.1 h).2⟩, by rfl, _, _, rfl⟩
  all_goals first
   | (obtain ⟨_, h⟩ := jump_next_iff.1 h; exact ⟨_, ⟨_, h⟩, rfl, rfl⟩)
   | (obtain ⟨_, h⟩ := jump_next_iff.1 h; exact ⟨_, ⟨_, h⟩, rfl, _, rfl⟩)
   | (obtain ⟨_, h⟩ := jump_next_iff.1 h; exact ⟨_, ⟨_, h⟩, by rfl, _, _, rfl⟩)

/-- Fetch below the top of memory. -/
theorem fetch_of_le {s : State} (h : s.pc.toNat ≤ 0xFFE) : s.fetch = .ok s.fetchWord := by simp [State.fetch, h]

/-- What a STEP can do: it is refused by a halted core, faults at fetch, faults at decode, or executes the instruction decoded. -/
theorem stepEvent_cases (s : State) : (s.halted = true ∧ s.stepEvent = .refused .halted) ∨
   (s.halted = false ∧ s.pc = 0xFFF#12 ∧ s.stepEvent = .fault (.pcOutOfRange s.pc none)) ∨
   (s.halted = false ∧ s.pc.toNat ≤ 0xFFE ∧ decode s.fetchWord = none ∧ s.stepEvent = .fault (.illegalInstruction s.pc s.fetchWord)) ∨
   (s.halted = false ∧ s.pc.toNat ≤ 0xFFE ∧ ∃ i, decode s.fetchWord = some i ∧ s.stepEvent = exec i s) := by
  rcases hh : s.halted with _ | _
  · right
    by_cases hp : s.pc.toNat ≤ 0xFFE
    · right
      rcases hd : decode s.fetchWord with _ | i
      · left; simp [State.stepEvent, hh, fetch_of_le hp, hd, hp, raise]
      · right; refine ⟨rfl, hp, i, rfl, ?_⟩; simp [State.stepEvent, hh, fetch_of_le hp, hd]
    · left
      have : s.pc = 0xFFF#12 := by apply BitVec.eq_of_toNat_eq; have := s.pc.isLt; simp; omega
      simp [State.stepEvent, hh, State.fetch, this]
  · left; simp [State.stepEvent, hh]

/-- The step of the interface faults exactly as the STEP does. -/
theorem step_fault_iff {s : State} {f : Fault} : step s = .fault f ↔ s.stepEvent = .fault f := by
  unfold step State.cycle mapNext; split <;> simp_all

/-- A STEP that answers a next state executed the instruction decoded. -/
theorem stepEvent_next {s t : State} (h : s.stepEvent = .next t) : ∃ i, s.halted = false ∧ decode s.fetchWord = some i ∧ exec i s = .next t := by
  rcases stepEvent_cases s with ⟨_, e⟩ | ⟨_, hp, e⟩ | ⟨_, hp, hd, e⟩ | ⟨hh, hp, i, hd, e⟩
  · rw [e] at h; cases h
  · rw [e] at h; cases h
  · rw [e] at h; cases h
  · exact ⟨i, hh, hd, e ▸ h⟩

/-- A step of the interface that answers a next state is a STEP and then the host's turn. -/
theorem step_next {s t : State} (h : step s = .next t) : ∃ u, s.stepEvent = .next u ∧ t = u.hostTurn := by
  unfold step State.cycle mapNext at h; split at h
  · cases h; exact ⟨_, ‹_›, rfl⟩
  · cases h
  · cases h

end Sys2Proof.Machine
end

