-- ==== Sys2Proof/Tests/Slice0.lean ====
section
/-! SUPPORT. The tests of the model. Expected results are the vectors of spec/95_test_vectors.md (their numbers, as E1, F1, A1, M1,
X1, K1, Z1, stand in the comments) or hand calculation from the rule cited; none is the model's own answer. After them, one
witness theorem per statement that has hypotheses: a concrete state and operands that meet them. -/

open Sys2Proof Sys2Proof.Machine

namespace Sys2Proof.Tests

/-! ### Helpers -/

/-- The outcome is a next state of which `p` holds. -/
def nextAnd (o : Host.Outcome State Fault Refusal) (p : State → Bool) : Bool :=
  match o with
  | .next t => p t
  | .fault _ => false
  | .refused _ => false

/-- The outcome is the fault `f`. -/
def isFault (o : Host.Outcome State Fault Refusal) (f : Fault) : Bool :=
  match o with
  | .next _ => false
  | .fault g => g == f
  | .refused _ => false

/-- One STEP with the word `w` placed at `pc`. -/
def run (w : Nat) (s : State) : Host.Outcome State Fault Refusal := (s.withFetchWord 16 w).stepEvent

/-- The state after RESET, `pc` at `a`. -/
def start (a : Addr) : State := State.reset.setPc a

/-- The state after RESET with two registers set. -/
def regs (x : Nibble) (a : Byte) (y : Nibble) (b : Byte) : State := (State.reset.setV x a).setV y b

/-- The state after RESET with `SP` set, `pc` at `a`. -/
def withSp (n : Fin 17) (a : Addr) : State := (start a).setSp n

/-- The state after RESET with `I` set and bytes written there. -/
def atI (w : Word) (bs : List Byte) : State := (State.reset.setI w).writeBytes (w.toNat % 4096) bs

/-! ### Well-formed terms (R100) -/

/-- R100: `SYS 0x0E0` is not an instruction value. -/
theorem test_wellFormed_refuses_sys_0E0 : (Instr.sysNnn 0x0E0#12).wellFormed = false := by decide

/-- R100: `SYS 0x0EE` is not an instruction value. -/
theorem test_wellFormed_refuses_sys_0EE : (Instr.sysNnn 0x0EE#12).wellFormed = false := by decide

/-- R98: its neighbours are. -/
theorem test_wellFormed_accepts : (Instr.sysNnn 0x0E1#12).wellFormed = true ∧ Instr.cls.wellFormed = true := by decide

/-! ### Decoding: one word per constructor, from the patterns of R95 -/

/-- E1. -/
theorem test_decode_cls : decode 0x00E0#16 = some .cls := by decide
/-- E2. -/
theorem test_decode_ret : decode 0x00EE#16 = some .ret := by decide
/-- E3, E4, E5. -/
theorem test_decode_sys :
    decode 0x0000#16 = some (.sysNnn 0x000#12) ∧ decode 0x00E1#16 = some (.sysNnn 0x0E1#12) ∧
    decode 0x0FFF#16 = some (.sysNnn 0xFFF#12) := by decide
/-- `1nnn`, source scenario 2. -/
theorem test_decode_jp : decode 0x1204#16 = some (.jpNnn 0x204#12) := by decide
/-- `2nnn`. -/
theorem test_decode_call : decode 0x2345#16 = some (.callNnn 0x345#12) := by decide
/-- `3xkk`. -/
theorem test_decode_seVxKk : decode 0x345A#16 = some (.seVxKk 0x4#4 0x5A#8) := by decide
/-- `4xkk`. -/
theorem test_decode_sneVxKk : decode 0x4BC1#16 = some (.sneVxKk 0xB#4 0xC1#8) := by decide
/-- E6, E7. -/
theorem test_decode_seVxVy : decode 0x5120#16 = some (.seVxVy 0x1#4 0x2#4) ∧ decode 0x5121#16 = none := by decide
/-- `6xkk`, source scenario 1. -/
theorem test_decode_ldVxKk : decode 0x602A#16 = some (.ldVxKk 0x0#4 0x2A#8) := by decide
/-- `7xkk`, source scenario 1. -/
theorem test_decode_addVxKk : decode 0x7001#16 = some (.addVxKk 0x0#4 0x01#8) := by decide
/-- `8xy0`. -/
theorem test_decode_ldVxVy : decode 0x8120#16 = some (.ldVxVy 0x1#4 0x2#4) := by decide
/-- `8xy1`. -/
theorem test_decode_or : decode 0x8341#16 = some (.orVxVy 0x3#4 0x4#4) := by decide
/-- `8xy2`. -/
theorem test_decode_and : decode 0x8562#16 = some (.andVxVy 0x5#4 0x6#4) := by decide
/-- `8xy3`. -/
theorem test_decode_xor : decode 0x8783#16 = some (.xorVxVy 0x7#4 0x8#4) := by decide
/-- `8xy4`, source scenario 3. -/
theorem test_decode_add : decode 0x8014#16 = some (.addVxVy 0x0#4 0x1#4) := by decide
/-- `8xy5`. -/
theorem test_decode_sub : decode 0x89A5#16 = some (.subVxVy 0x9#4 0xA#4) := by decide
/-- `8xy6`, the encoder's example `SHR V4, V0`. -/
theorem test_decode_shr : decode 0x8406#16 = some (.shrVxVy 0x4#4 0x0#4) := by decide
/-- `8xy7`. -/
theorem test_decode_subn : decode 0x8CD7#16 = some (.subnVxVy 0xC#4 0xD#4) := by decide
/-- E8, E10. -/
theorem test_decode_shl : decode 0x8ABE#16 = some (.shlVxVy 0xA#4 0xB#4) ∧ decode 0x8128#16 = none := by decide
/-- E19, E20. -/
theorem test_decode_sneVxVy : decode 0x9AB0#16 = some (.sneVxVy 0xA#4 0xB#4) ∧ decode 0x9AB1#16 = none := by decide
/-- `Annn`, the encoder's example `LD I, 0x2F0`. -/
theorem test_decode_ldI : decode 0xA2F0#16 = some (.ldINnn 0x2F0#12) := by decide
/-- E17. -/
theorem test_decode_jpV0 : decode 0xBFFF#16 = some (.jpV0Nnn 0xFFF#12) := by decide
/-- E18. -/
theorem test_decode_rnd : decode 0xC3A5#16 = some (.rndVxKk 0x3#4 0xA5#8) := by decide
/-- E16. -/
theorem test_decode_drw : decode 0xD12F#16 = some (.drwVxVyN 0x1#4 0x2#4 0xF#4) := by decide
/-- E11, E12. -/
theorem test_decode_skp : decode 0xE19E#16 = some (.skpVx 0x1#4) ∧ decode 0xE19F#16 = none := by decide
/-- `ExA1`, E13. -/
theorem test_decode_sknp : decode 0xE2A1#16 = some (.sknpVx 0x2#4) ∧ decode 0xE000#16 = none := by decide
/-- `Fx07`. -/
theorem test_decode_ldVxDt : decode 0xF507#16 = some (.ldVxDt 0x5#4) := by decide
/-- `Fx0A`. -/
theorem test_decode_ldVxK : decode 0xF30A#16 = some (.ldVxK 0x3#4) := by decide
/-- `Fx15`. -/
theorem test_decode_ldDtVx : decode 0xF115#16 = some (.ldDtVx 0x1#4) := by decide
/-- `Fx18`. -/
theorem test_decode_ldStVx : decode 0xF218#16 = some (.ldStVx 0x2#4) := by decide
/-- `Fx1E`, the encoder's example `ADD I, VE`. -/
theorem test_decode_addI : decode 0xFE1E#16 = some (.addIVx 0xE#4) := by decide
/-- `Fx29`. -/
theorem test_decode_ldF : decode 0xF329#16 = some (.ldFVx 0x3#4) := by decide
/-- `Fx33`. -/
theorem test_decode_ldB : decode 0xF933#16 = some (.ldBVx 0x9#4) := by decide
/-- `Fx55`. -/
theorem test_decode_ldMemI : decode 0xFA55#16 = some (.ldMemIVx 0xA#4) := by decide
/-- E14, E15, E9. -/
theorem test_decode_ldVxMemI :
    decode 0xF065#16 = some (.ldVxMemI 0x0#4) ∧ decode 0xF066#16 = none ∧ decode 0xFFFF#16 = none := by decide

/-- The encoder's example `DRW V1, V2, 15`, as the two bytes of R61. -/
theorem test_encode_bytes : encodeBytes (.drwVxVyN 0x1#4 0x2#4 0xF#4) = [0xD1#8, 0x2F#8] := by decide

/-- Fetch byte order (R61): the bytes 12 04 are the word 0x1204. -/
theorem test_fetch_order :
    decodeBytes [0x12#8, 0x04#8, 0xFF#8] = .ok (.jpNnn 0x204#12, [0xFF#8]) ∧
    decodeTableWord 16 0x1204 = some (.jpNnn 0x204#12) := ⟨rfl, by decide⟩

/-! ### Spelling -/

/-- Source scenario 1 (S1). -/
theorem test_assemble :
    assemble [.instr .cls [], .instr .ld [.v 0#4, .num 0x2A], .instr .add [.v 0#4, .num 1]] =
      .ok [0x00#8, 0xE0#8, 0x60#8, 0x2A#8, 0x70#8, 0x01#8] := by rfl
/-- Source scenario 2 (S2). -/
theorem test_listing :
    listing [0x00#8, 0xE0#8, 0x12#8, 0x04#8, 0xFF#8, 0xFF#8] =
      [.instr .cls [], .instr .jp [.num 0x204], .word 0xFFFF] := by decide
/-- R118, R264: all errors are collected, the layout's included. -/
theorem test_assemble_errors :
    assemble [.space 4000, .byte 300, .instr .jp [.v 1#4, .num 0x300]] = .error [.range, .shape, .layout] ∧
    assemble [.space 3584, .byte 1] = .error [.layout] := ⟨rfl, rfl⟩
/-- R121: the listing of an odd ROM assembles back to it. -/
theorem test_listing_odd : assemble [.byte 5] = .ok [5#8] ∧ assemble (listing [5#8]) = .ok [5#8] := ⟨rfl, rfl⟩
/-- R115, R116, D15: an omitted `Vy`, a value out of range, and a shape no instruction has. -/
theorem test_assembleInstr :
    assembleInstr .shr [.v 4#4] = .ok (.shrVxVy 4#4 0#4) ∧ assembleInstr .ld [.v 4#4, .num 256] = .error .range ∧
    assembleInstr .jp [.v 1#4, .num 0x300] = .error .shape := ⟨rfl, rfl, rfl⟩

/-! ### Control flow -/

/-- F1. -/
theorem test_sys : nextAnd (run 0x0123 State.reset) (fun t => t.pc == 0x202#12 && t.getV 0#4 == 0#8) = true := by decide
/-- F30. -/
theorem test_sys_top : isFault (run 0x0000 (start 0xFFE#12)) (.pcOutOfRange 0xFFE#12 (some 0x0000#16)) = true := by decide
/-- F2. -/
theorem test_ret :
    nextAnd (run 0x00EE ((withSp 1 0x300#12).setStack 0 0x202#12))
      (fun t => t.pc == 0x202#12 && t.sp == 0 && t.stack[0] == 0x202#12) = true := by decide
/-- F3. -/
theorem test_ret_empty : isFault (run 0x00EE State.reset) (.stackUnderflow 0x200#12 0x00EE#16) = true := by decide
/-- F5. -/
theorem test_jp : nextAnd (run 0x1204 (start 0xFFE#12)) (fun t => t.pc == 0x204#12) = true := by decide
/-- F8. -/
theorem test_call :
    nextAnd (run 0x2300 (withSp 15 0x200#12))
      (fun t => t.pc == 0x300#12 && t.sp == 16 && t.stack[15] == 0x202#12) = true := by decide
/-- F9, F10. -/
theorem test_call_faults :
    isFault (run 0x2300 (withSp 16 0x200#12)) (.stackOverflow 0x200#12 0x2300#16) = true ∧
    isFault (run 0x2300 (start 0xFFE#12)) (.pcOutOfRange 0xFFE#12 (some 0x2300#16)) = true := by decide
/-- F11, F12. -/
theorem test_seVxKk :
    nextAnd (run 0x332A (State.reset.setV 3#4 0x2A#8)) (fun t => t.pc == 0x204#12) = true ∧
    nextAnd (run 0x332A (State.reset.setV 3#4 0x2B#8)) (fun t => t.pc == 0x202#12) = true := by decide
/-- F13, F14. -/
theorem test_seVxKk_top :
    isFault (run 0x332A ((start 0xFFC#12).setV 3#4 0x2A#8)) (.pcOutOfRange 0xFFC#12 (some 0x332A#16)) = true ∧
    nextAnd (run 0x332A (start 0xFFC#12)) (fun t => t.pc == 0xFFE#12) = true := by decide
/-- F15, F16. -/
theorem test_sneVxKk :
    nextAnd (run 0x432A (State.reset.setV 3#4 0x2A#8)) (fun t => t.pc == 0x202#12) = true ∧
    nextAnd (run 0x432A State.reset) (fun t => t.pc == 0x204#12) = true := by decide
/-- F17, F18. -/
theorem test_seVxVy :
    nextAnd (run 0x5120 (regs 1#4 7#8 2#4 7#8)) (fun t => t.pc == 0x204#12) = true ∧
    nextAnd (run 0x5120 (regs 1#4 7#8 2#4 8#8)) (fun t => t.pc == 0x202#12) = true := by decide
/-- F20, F21. -/
theorem test_sneVxVy :
    nextAnd (run 0x9120 (regs 1#4 7#8 2#4 8#8)) (fun t => t.pc == 0x204#12) = true ∧
    nextAnd (run 0x9330 (State.reset.setV 3#4 9#8)) (fun t => t.pc == 0x202#12) = true := by decide
/-- F22, F23. -/
theorem test_jpV0 :
    nextAnd (run 0xB300 (State.reset.setV 0#4 4#8)) (fun t => t.pc == 0x304#12) = true ∧
    nextAnd (run 0xBF00 (State.reset.setV 0#4 0xFF#8)) (fun t => t.pc == 0xFFF#12) = true := by decide
/-- F24. -/
theorem test_jpV0_sum :
    isFault (run 0xBFFF (State.reset.setV 0#4 1#8)) (.pcOutOfRange 0x200#12 (some 0xBFFF#16)) = true := by decide
/-- F26, F29. -/
theorem test_illegal :
    isFault (run 0x5121 State.reset) (.illegalInstruction 0x200#12 0x5121#16) = true ∧
    isFault (run 0xE000 State.reset) (.illegalInstruction 0x200#12 0xE000#16) = true := by decide
/-- F31. -/
theorem test_fetch_top : isFault (start 0xFFF#12).stepEvent (.pcOutOfRange 0xFFF#12 none) = true := by decide

/-! ### Arithmetic and logic -/

/-- A1, A2. -/
theorem test_ldVxKk :
    nextAnd (run 0x602A State.reset) (fun t => t.getV 0#4 == 0x2A#8) = true ∧
    nextAnd (run 0x6FAB State.reset) (fun t => t.getV 15#4 == 0xAB#8) = true := by decide
/-- A5. -/
theorem test_addVxKk :
    nextAnd (run 0x70FF (regs 0#4 5#8 15#4 1#8)) (fun t => t.getV 0#4 == 4#8 && t.getV 15#4 == 1#8) = true := by decide
/-- A7. -/
theorem test_ldVxVy : nextAnd (run 0x8120 (regs 1#4 1#8 2#4 9#8)) (fun t => t.getV 1#4 == 9#8) = true := by decide
/-- A8. -/
theorem test_or :
    nextAnd (run 0x8121 ((regs 1#4 0xF0#8 2#4 0x0F#8).setV 15#4 1#8))
      (fun t => t.getV 1#4 == 0xFF#8 && t.getV 15#4 == 1#8) = true := by decide
/-- A9. -/
theorem test_and :
    nextAnd (run 0x8122 ((regs 1#4 0xF0#8 2#4 0x3C#8).setV 15#4 1#8))
      (fun t => t.getV 1#4 == 0x30#8 && t.getV 15#4 == 1#8) = true := by decide
/-- A10. -/
theorem test_xor :
    nextAnd (run 0x8123 ((regs 1#4 0xF0#8 2#4 0x3C#8).setV 15#4 1#8))
      (fun t => t.getV 1#4 == 0xCC#8 && t.getV 15#4 == 1#8) = true := by decide
/-- A13. -/
theorem test_add :
    nextAnd (run 0x8014 (regs 0#4 0xFF#8 1#4 1#8)) (fun t => t.getV 0#4 == 0#8 && t.getV 15#4 == 1#8) = true := by decide
/-- A17, A18. -/
theorem test_add_vf :
    nextAnd (run 0x8F14 (regs 15#4 0xFF#8 1#4 2#8)) (fun t => t.getV 15#4 == 1#8) = true ∧
    nextAnd (run 0x81F4 (regs 1#4 0xFF#8 15#4 1#8)) (fun t => t.getV 1#4 == 0#8 && t.getV 15#4 == 1#8) = true := by decide
/-- A20, A21. -/
theorem test_sub :
    nextAnd (run 0x8125 (regs 1#4 3#8 2#4 10#8)) (fun t => t.getV 1#4 == 0xF9#8 && t.getV 15#4 == 0#8) = true ∧
    nextAnd (run 0x8125 (regs 1#4 7#8 2#4 7#8)) (fun t => t.getV 1#4 == 0#8 && t.getV 15#4 == 1#8) = true := by decide
/-- A25. -/
theorem test_sub_vf : nextAnd (run 0x8F15 (regs 15#4 3#8 1#4 5#8)) (fun t => t.getV 15#4 == 0#8) = true := by decide
/-- A27. -/
theorem test_shr :
    nextAnd (run 0x8126 (regs 1#4 4#8 2#4 0xFF#8))
      (fun t => t.getV 1#4 == 2#8 && t.getV 2#4 == 0xFF#8 && t.getV 15#4 == 0#8) = true := by decide
/-- A31. -/
theorem test_shr_vf : nextAnd (run 0x8F06 (State.reset.setV 15#4 3#8)) (fun t => t.getV 15#4 == 1#8) = true := by decide
/-- A33, A34. -/
theorem test_subn :
    nextAnd (run 0x8127 (regs 1#4 3#8 2#4 10#8)) (fun t => t.getV 1#4 == 7#8 && t.getV 15#4 == 1#8) = true ∧
    nextAnd (run 0x8127 (regs 1#4 10#8 2#4 3#8)) (fun t => t.getV 1#4 == 0xF9#8 && t.getV 15#4 == 0#8) = true := by decide
/-- A38. -/
theorem test_shl :
    nextAnd (run 0x810E (State.reset.setV 1#4 0x81#8)) (fun t => t.getV 1#4 == 2#8 && t.getV 15#4 == 1#8) = true := by decide
/-- A43. -/
theorem test_shl_vf : nextAnd (run 0x8F0E (State.reset.setV 15#4 0x41#8)) (fun t => t.getV 15#4 == 0#8) = true := by decide
/-- A44, with the random byte laid down. -/
theorem test_rnd :
    nextAnd (run 0xC10F { State.reset with env := { State.reset.env with rng := [0xA7#8, 0x11#8] } })
      (fun t => t.getV 1#4 == 0x07#8 && t.env.rng == [0x11#8]) = true := by decide

/-! ### Address register and memory -/

/-- M1. -/
theorem test_ldI : nextAnd (run 0xA300 State.reset) (fun t => t.i == 0x300#16) = true := by decide
/-- M4, M6. -/
theorem test_addI :
    nextAnd (run 0xF21E ((State.reset.setI 0xFFF#16).setV 2#4 1#8)) (fun t => t.i == 0x1000#16) = true ∧
    nextAnd (run 0xF21E ((State.reset.setI 0xFFF0#16).setV 2#4 0xFF#8))
      (fun t => t.i == 0xEF#16 && t.getV 15#4 == 0#8) = true := by decide
/-- M8. -/
theorem test_ldF : nextAnd (run 0xF329 (State.reset.setV 3#4 0x1A#8)) (fun t => t.i == 0x32#16) = true := by decide
/-- M11. -/
theorem test_ldB :
    nextAnd (run 0xF133 ((State.reset.setI 0x300#16).setV 1#4 156#8))
      (fun t => t.readByte 0x300#12 == 1#8 && t.readByte 0x301#12 == 5#8 && t.readByte 0x302#12 == 6#8) = true := by decide
/-- M16, M17. -/
theorem test_ldB_top :
    nextAnd (run 0xF133 ((State.reset.setI 0xFFD#16).setV 1#4 123#8)) (fun t => t.readByte 0xFFF#12 == 3#8) = true ∧
    isFault (run 0xF133 (State.reset.setI 0xFFE#16)) (.memoryFault 0x200#12 0xF133#16) = true := by decide
/-- M19. -/
theorem test_ldMemI :
    nextAnd (run 0xF255 (((regs 0#4 1#8 1#4 2#8).setV 2#4 3#8).setV 3#4 4#8 |>.setI 0x400#16))
      (fun t => t.readByte 0x400#12 == 1#8 && t.readByte 0x402#12 == 3#8 && t.readByte 0x403#12 == 0#8 &&
        t.i == 0x400#16) = true := by decide
/-- M20, M21. -/
theorem test_ldMemI_top :
    nextAnd (run 0xF055 ((State.reset.setI 0xFFF#16).setV 0#4 0xAA#8)) (fun t => t.readByte 0xFFF#12 == 0xAA#8) = true ∧
    isFault (run 0xF155 (State.reset.setI 0xFFF#16)) (.memoryFault 0x200#12 0xF155#16) = true := by decide
/-- M24. -/
theorem test_ldVxMemI :
    nextAnd (run 0xF265 ((atI 0x400#16 [0x0A#8, 0x0B#8, 0x0C#8, 0x0D#8]).setV 3#4 0x77#8))
      (fun t => t.getV 0#4 == 0x0A#8 && t.getV 2#4 == 0x0C#8 && t.getV 3#4 == 0x77#8) = true := by decide
/-- M26, M28. -/
theorem test_ldVxMemI_top :
    isFault (run 0xF165 (State.reset.setI 0xFFF#16)) (.memoryFault 0x200#12 0xF165#16) = true ∧
    nextAnd (run 0xFF65 (State.reset.setI 0x005#16)) (fun t => t.getV 0#4 == 0x20#8 && t.getV 15#4 == 0x90#8) = true := by
  decide

/-! ### Display -/

/-- X1. -/
theorem test_cls :
    nextAnd (run 0x00E0 ((State.reset.setFb ((Vector.replicate 32 0#64).set 31 (BitVec.twoPow 64 63))).setV 15#4 7#8))
      (fun t => !t.pixel 63 31 && t.getV 15#4 == 7#8) = true := by decide
/-- X6: the sprite at (62, 30) is clipped to four pixels. -/
theorem test_drw_clip :
    nextAnd (run 0xD015 (((atI 0x300#16 (List.replicate 5 0xFF#8)).setV 0#4 62#8).setV 1#4 30#8))
      (fun t => t.pixel 62 30 && t.pixel 63 30 && t.pixel 62 31 && t.pixel 63 31 && t.fb[0] == 0#64 &&
        t.fb[30] == 3#64 <<< 62 && t.fb[31] == 3#64 <<< 62 && t.getV 15#4 == 0#8) = true := by decide
/-- X10, X14, X17: a collision; the old `VF` as the column; the sprite read past the top of memory. -/
theorem test_drw_collision :
    nextAnd (run 0xD011 ((atI 0x300#16 [0xC0#8]).setFb ((Vector.replicate 32 0#64).set 0 2#64)))
      (fun t => t.fb[0] == 1#64 && t.getV 15#4 == 1#8) = true ∧
    nextAnd (run 0xDF11 (((atI 0x300#16 [0x80#8]).setV 15#4 3#8).setV 1#4 2#8)) (fun t => t.pixel 3 2 && t.getV 15#4 == 0#8) = true ∧
    nextAnd (run 0xD012 (atI 0xFFF#16 [0x80#8, 0x40#8])) (fun t => t.pixel 0 0 && t.pixel 1 1 && !t.pixel 0 1) = true := by decide

/-! ### Keypad and timers -/

/-- K1, K2. -/
theorem test_skp :
    nextAnd (run 0xE29E ((State.reset.setV 2#4 0xA#8).setKeypad 0x0400#16)) (fun t => t.pc == 0x204#12) = true ∧
    nextAnd (run 0xE29E (State.reset.setV 2#4 0xA#8)) (fun t => t.pc == 0x202#12) = true := by decide
/-- K7. -/
theorem test_skp_index :
    isFault (run 0xE29E ((State.reset.setV 2#4 0x10#8).setKeypad 1#16)) (.keyIndexOutOfRange 0x200#12 0xE29E#16) = true := by decide
/-- K4, K5. -/
theorem test_sknp :
    nextAnd (run 0xE2A1 (State.reset.setV 2#4 0xA#8)) (fun t => t.pc == 0x204#12) = true ∧
    nextAnd (run 0xE2A1 ((State.reset.setV 2#4 0xA#8).setKeypad 0x0400#16)) (fun t => t.pc == 0x202#12) = true := by decide
/-- K8. -/
theorem test_sknp_index :
    isFault (run 0xE2A1 (State.reset.setV 2#4 0xFF#8)) (.keyIndexOutOfRange 0x200#12 0xE2A1#16) = true := by decide
/-- K11, K14. -/
theorem test_ldVxK_wait :
    nextAnd (run 0xF30A ((State.reset.setV 3#4 0x55#8).setDt 9#8))
      (fun t => t.pc == 0x200#12 && t.getV 3#4 == 0x55#8 && t.dt == 9#8) = true ∧
    nextAnd (run 0xF30A (start 0xFFE#12)) (fun t => t.pc == 0xFFE#12) = true := by decide
/-- K12, K15. -/
theorem test_ldVxK :
    nextAnd (run 0xF30A ((State.reset.setV 3#4 0x55#8).setKeypad 0x0080#16)) (fun t => t.pc == 0x202#12 && t.getV 3#4 == 7#8) = true ∧
    isFault (run 0xF30A ((start 0xFFE#12).setKeypad 2#16)) (.pcOutOfRange 0xFFE#12 (some 0xF30A#16)) = true := by decide
/-- K17. -/
theorem test_ldVxDt : nextAnd (run 0xF507 (State.reset.setDt 0x3C#8)) (fun t => t.getV 5#4 == 0x3C#8 && t.dt == 0x3C#8) = true := by decide
/-- K18. -/
theorem test_ldDtVx : nextAnd (run 0xF115 (State.reset.setV 1#4 60#8)) (fun t => t.dt == 60#8 && t.st == 0#8) = true := by decide
/-- K19. -/
theorem test_ldStVx : nextAnd (run 0xF118 (State.reset.setV 1#4 30#8)) (fun t => t.st == 30#8 && t.dt == 0#8) = true := by decide

/-- The TICK of section 7: from `DT = 2`, `ST = 1`, two TICKs. -/
theorem test_tick :
    ((State.reset.setDt 2#8).setSt 1#8).tick.dt = 1#8 ∧ ((State.reset.setDt 2#8).setSt 1#8).tick.st = 0#8 ∧
    ((State.reset.setDt 2#8).setSt 1#8).tick.tick.tick.dt = 0#8 := by decide

/-- A step of the interface with the host's turn laid down: three TICKs after the `LD DT` (R267, R268). -/
theorem test_step_turn :
    nextAnd (step ({ State.reset.setV 1#4 60#8 with env :=
        { State.reset.env with script := [⟨3, 0x8000#16, 0⟩] } }.withFetchWord 16 0xF115))
      (fun t => t.dt == 57#8 && t.env.keypad == 0x8000#16 && t.pc == 0x202#12) = true := by decide

/-- K13: keys 2 and 9 are down; in separate events each STEP chooses afresh. -/
theorem test_event_pick :
    nextAnd (((State.reset.setKeypad 0x0204#16).withFetchWord 16 0xF30A).event (.step 0)) (fun t => t.getV 3#4 == 2#8) = true ∧
    nextAnd (((State.reset.setKeypad 0x0204#16).withFetchWord 16 0xF30A).event (.step 1)) (fun t => t.getV 3#4 == 9#8) = true := by
  decide

/-! ### Reset and halt -/

/-- Z5. -/
theorem test_reset_rom :
    nextAnd (State.reset.resetEvent [0x12#8]) (fun t => t.fetchWord == 0x1200#16 && t.pc == 0x200#12) = true := by decide
/-- Z6, R257: a faulted core is halted, refuses a STEP, and is cleared by RESET. -/
theorem test_halt :
    ((start 0x300#12).withFetchWord 16 0xFFFF).settle (run 0xFFFF (start 0x300#12)) =
      ((start 0x300#12).withFetchWord 16 0xFFFF).halt (.illegalInstruction 0x300#12 0xFFFF#16) ∧
    step (State.reset.halt (.stackUnderflow 0x200#12 0x00EE#16)) = .refused .halted ∧
    nextAnd ((State.reset.halt (.stackUnderflow 0x200#12 0x00EE#16)).resetEvent []) (fun t => !t.halted && t.fault == none) = true :=
  ⟨by decide, rfl, by decide⟩
/-- R33, R39: the font's first and last byte, and the first byte after it. -/
theorem test_reset_font :
    State.reset.readByte 0x000#12 = 0xF0#8 ∧ State.reset.readByte 0x04B#12 = 0xF0#8 ∧ State.reset.readByte 0x04F#12 = 0x80#8 ∧
    State.reset.readByte 0x050#12 = 0x00#8 := by decide
/-- R66: writing what an unlisted address reads as removes the cell. -/
theorem test_memory_canonical :
    ((State.reset.writeByte 0x300#12 7#8).writeByte 0x300#12 0#8) = State.reset ∧
    ((State.reset.writeByte 0x301#12 7#8).writeByte 0x300#12 5#8).mem = [(0x300, 5#8), (0x301, 7#8)] := by decide

/-! ### Witnesses: states and operands that meet the hypotheses of the statements, one clause after the other, at the boundaries
of their ranges -/

/-- The state after RESET with the word `w` placed at `a` and `pc` there. -/
def placed (a : Addr) (w : Nat) : State := (start a).withFetchWord 16 w

theorem witness_DecodeEncodeRoundTrip :
    (Instr.sysNnn 0xFFF#12).wellFormed = true ∧ (Instr.drwVxVyN 0xF#4 0x0#4 0xF#4).wellFormed = true := by decide

theorem witness_EncodeDecodeRoundTrip : decode 0xFF65#16 = some (.ldVxMemI 0xF#4) := by decide

/-- The longest ROM, and an odd one that the assembler produces. -/
theorem witness_ListingAssemblesBack :
    (List.replicate 3584 0xFF#8).length ≤ 3584 ∧ assemble [.instr .cls [], .byte 5] = .ok [0x00#8, 0xE0#8, 0x05#8] :=
  ⟨le_of_eq List.length_replicate, rfl⟩

/-- At 0xFFE, the last address of an instruction: a `JP` answers a next state, a `SYS` a fault. -/
theorem witness_StepRunsDecodedInstruction :
    (placed 0xFFE#12 0x1204).halted = false ∧ (placed 0xFFE#12 0x1204).pc.toNat ≤ 0xFFE ∧
    (0x1204#16).toNat = 256 * ((placed 0xFFE#12 0x1204).readByte 0xFFE#12).toNat +
      ((placed 0xFFE#12 0x1204).readByte 0xFFF#12).toNat ∧
    decode 0x1204#16 = some (.jpNnn 0x204#12) ∧
    nextAnd (exec (.jpNnn 0x204#12) (placed 0xFFE#12 0x1204)) (fun t => t.pc == 0x204#12) = true ∧
    decode 0x0000#16 = some (.sysNnn 0x000#12) ∧
    (0x0000#16).toNat = 256 * ((start 0xFFE#12).readByte 0xFFE#12).toNat + ((start 0xFFE#12).readByte 0xFFF#12).toNat ∧
    isFault (exec (.sysNnn 0x000#12) (start 0xFFE#12)) (.pcOutOfRange 0xFFE#12 (some 0x0000#16)) = true := by decide

theorem witness_IllegalInstructionExactly :
    (placed 0xFFE#12 0x5121).halted = false ∧ (placed 0xFFE#12 0x5121).pc.toNat ≤ 0xFFE ∧
    (0x5121#16).toNat = 256 * ((placed 0xFFE#12 0x5121).readByte 0xFFE#12).toNat +
      ((placed 0xFFE#12 0x5121).readByte 0xFFF#12).toNat ∧
    decode 0x5121#16 = none ∧
    isFault (step (placed 0xFFE#12 0x5121)) (.illegalInstruction 0xFFE#12 0x5121#16) = true := by decide

theorem witness_FetchAtTopFaults : (start 0xFFF#12).halted = false ∧ (start 0xFFF#12).pc = 0xFFF#12 := by decide

/-- The longest ROM of the RESET clause is 3584 bytes. -/
theorem witness_FaultEntryAndExit :
    (start 0xFFF#12).stepEvent = .fault (.pcOutOfRange 0xFFF#12 none) ∧
    (placed 0x300#12 0xFFFF).stepEvent = .fault (.illegalInstruction 0x300#12 0xFFFF#16) ∧
    (∀ rom, Event.step 0 ≠ .reset rom) ∧ (∀ rom, Event.tick ≠ .reset rom) ∧ (∀ rom, Event.keypad 1#16 ≠ .reset rom) ∧
    (List.replicate 3584 0x12#8).length ≤ 3584 := ⟨rfl, rfl, by simp, by simp, by simp, le_of_eq List.length_replicate⟩

theorem witness_FaultRecordNamesInstruction :
    step (start 0xFFF#12) = .fault (.pcOutOfRange 0xFFF#12 none) ∧
    step (placed 0x200#12 0x00EE) = .fault (.stackUnderflow 0x200#12 0x00EE#16) ∧ (placed 0x200#12 0x00EE).pc ≠ 0xFFF#12 :=
  ⟨rfl, rfl, by decide⟩

/-- Each fault an instruction raises is raised. -/
theorem witness_FaultsOnlyFromTheirCauses :
    isFault (exec (.callNnn 0x300#12) (withSp 16 0x200#12)) (.stackOverflow 0x200#12 0x2300#16) = true ∧
    isFault (exec .ret State.reset) (.stackUnderflow 0x200#12 0x00EE#16) = true ∧
    isFault (exec (.ldBVx 1#4) (State.reset.setI 0xFFE#16)) (.memoryFault 0x200#12 0xF133#16) = true ∧
    isFault (exec (.ldMemIVx 1#4) (State.reset.setI 0xFFF#16)) (.memoryFault 0x200#12 0xF155#16) = true ∧
    isFault (exec (.ldVxMemI 1#4) (State.reset.setI 0xFFF#16)) (.memoryFault 0x200#12 0xF165#16) = true ∧
    isFault (exec .cls (start 0xFFE#12)) (.pcOutOfRange 0xFFE#12 (some 0x00E0#16)) = true ∧
    isFault (exec (.seVxKk 1#4 0#8) (start 0xFFC#12)) (.pcOutOfRange 0xFFC#12 (some 0x3100#16)) = true ∧
    isFault (exec (.jpV0Nnn 0xFFF#12) (State.reset.setV 0#4 1#8)) (.pcOutOfRange 0x200#12 (some 0xBFFF#16)) = true ∧
    isFault (exec (.skpVx 2#4) (State.reset.setV 2#4 16#8)) (.keyIndexOutOfRange 0x200#12 0xE29E#16) = true := by decide

/-- The clauses of the statement in its order, each at its boundary. -/
theorem witness_PcPastTheTopFaults :
    (withSp 15 0xFFE#12).sp.val < 16 ∧ 0xFFF < (withSp 15 0xFFE#12).pc.toNat + 2 ∧
    0xFFF < (0xFFF#12).toNat + ((State.reset.setV 0#4 1#8).getV 0#4).toNat ∧
    0xFFF < (start 0xFFC#12).pc.toNat + (if ((start 0xFFC#12).getV 1#4).toNat = (0#8).toNat then 4 else 2) ∧
    0xFFF < (start 0xFFE#12).pc.toNat + (if ((start 0xFFE#12).getV 1#4).toNat = (0#8).toNat then 2 else 4) ∧
    ((start 0xFFC#12).setV 2#4 0xF#8).getV 2#4 = 0xF#8 ∧
    0xFFF < (start 0xFFC#12).pc.toNat + (if ((start 0xFFC#12).setKeypad 0x8000#16).env.keypad.toNat / 2 ^ 15 % 2 = 1 then 4 else 2) ∧
    0xFFF < (start 0xFFC#12).pc.toNat + (if (start 0xFFC#12).env.keypad.toNat / 2 ^ 15 % 2 = 1 then 2 else 4) ∧
    ((start 0xFFE#12).setKeypad 2#16).env.keypad ≠ 0#16 ∧ (start 0xFFE#12).env.keypad = 0#16 ∧
    ((start 0xFFE#12).setI 0xFFD#16).i.toNat + 2 ≤ 4095 ∧ ((start 0xFFE#12).setI 0xFF0#16).i.toNat + (0xF#4).toNat ≤ 4095 := by
  decide

theorem witness_ResetValues : 80 ≤ (0x050#12).toNat ∧ 80 ≤ (0xFFF#12).toNat := by decide

/-- Z3, Z4: the longest ROM, with no byte of memory above it, and one byte more; an empty ROM, with bytes on both sides. -/
theorem witness_ResetEventBuildsState :
    (List.replicate 3584 0x12#8).length ≤ 3584 ∧ ([] : List Byte).length ≤ 3584 ∧
    80 ≤ (0x1FF#12).toNat ∧ (0x1FF#12).toNat < 0x200 ∧ 0x200 + ([] : List Byte).length ≤ (0x200#12).toNat :=
  ⟨le_of_eq List.length_replicate, by decide⟩

theorem witness_ResetRefusesLongRom : 3584 < (List.replicate 3585 0x12#8).length :=
  lt_of_lt_of_eq (by decide) List.length_replicate.symm

theorem witness_FirstFetchAfterReset :
    nextAnd (State.reset.resetEvent [0x60#8, 0x05#8, 0x61#8]) (fun t => t.pc == 0x200#12) = true := by decide

/-- A store keeps the invariant, with a cell listed. -/
theorem witness_StepKeepsInvariant :
    (((placed 0x200#12 0xF055).setI 0x400#16).setV 0#4 7#8).Inv ∧
    nextAnd (step (((placed 0x200#12 0xF055).setI 0x400#16).setV 0#4 7#8)) (fun t => t.readByte 0x400#12 == 7#8) = true := by
  decide

/-- A state that meets the invariant and on which each event answers: STEP a next state, STEP a fault, and RESET. -/
theorem witness_EventsKeepInvariant :
    State.reset.Inv ∧ (start 0xFFF#12).Inv ∧ (State.reset.halt (.stackUnderflow 0x200#12 0x00EE#16)).Inv := by decide

/-- An `ADD I` at the boundary, and another instruction. -/
theorem witness_IStaysTwelveBitsButForAddI :
    (((placed 0x200#12 0xF21E).setI 0xFFE#16).setV 2#4 1#8).i.toNat ≤ 4095 ∧
    decode (((placed 0x200#12 0xF21E).setI 0xFFE#16).setV 2#4 1#8).fetchWord = some (.addIVx 2#4) ∧
    (0xFFE#16).toNat + (1#8).toNat ≤ 4095 ∧
    nextAnd (step (((placed 0x200#12 0xF21E).setI 0xFFE#16).setV 2#4 1#8)) (fun t => t.i == 0xFFF#16) = true := by decide

theorem witness_ReadAfterWrite : (0xFFF#12 : Addr) ≠ 0x000#12 := by decide

theorem witness_FetchIsBigEndian : (start 0xFFE#12).pc.toNat ≤ 0xFFE := by decide

theorem witness_PlacedWordIsFetched : (start 0xFFE#12).pc.toNat ≤ 0xFFE ∧ 0xFFFF < 65536 := by decide

/-- At 0xFFC, the last `pc` that meets the hypothesis, both stores run: over both bytes of the next instruction, over its first byte
alone, and elsewhere. -/
theorem witness_StoreIsSeenByNextFetch :
    (start 0xFFC#12).pc.toNat ≤ 0xFFC ∧
    nextAnd (exec (.ldMemIVx 1#4) ((start 0xFFC#12).setI 0xFFE#16)) (fun t => t.pc == 0xFFE#12) = true ∧
    nextAnd (exec (.ldBVx 1#4) ((start 0xFFC#12).setI 0xFFC#16)) (fun t => t.pc == 0xFFE#12) = true ∧
    nextAnd (exec (.ldBVx 1#4) ((start 0xFFC#12).setI 0x300#16)) (fun t => t.pc == 0xFFE#12) = true := by decide

theorem witness_TickDecrementsTimers :
    0 < ((State.reset.setDt 1#8).setSt 255#8).dt.toNat ∧ 0 < ((State.reset.setDt 1#8).setSt 255#8).st.toNat ∧
    State.reset.dt.toNat = 0 ∧ State.reset.st.toNat = 0 := by decide

theorem witness_SysOnlyAdvances :
    (0xFFF#12 : Addr) ≠ 0x0E0#12 ∧ (0xFFF#12 : Addr) ≠ 0x0EE#12 ∧
    nextAnd (exec (.sysNnn 0xFFF#12) (start 0xFFD#12)) (fun t => t.pc == 0xFFF#12) = true := by decide

theorem witness_JumpSetsPc : nextAnd (exec (.jpNnn 0xFFF#12) (start 0xFFE#12)) (fun t => t.pc == 0xFFF#12) = true := by decide

theorem witness_JumpV0AddsRegisterZero :
    (0xF00#12).toNat + ((State.reset.setV 0#4 0xFF#8).getV 0#4).toNat ≤ 0xFFF := by decide

theorem witness_CallPushesAndJumps :
    (withSp 15 0xFFD#12).sp.val < 16 ∧ (withSp 15 0xFFD#12).pc.toNat + 2 ≤ 0xFFF ∧ (withSp 16 0xFFD#12).sp.val = 16 := by decide

theorem witness_RetPopsAndJumps :
    (withSp 16 0x300#12).sp.val = (15 : Fin 16).val + 1 ∧ (withSp 1 0x300#12).sp.val = (0 : Fin 16).val + 1 ∧
    (withSp 0 0x300#12).sp.val = 0 := by decide

theorem witness_RetUndoesCall :
    nextAnd (exec (.callNnn 0x300#12) (withSp 15 0xFFD#12)) (fun t => t.sp == 16) = true := by decide

/-- Taken to 0xFFF from 0xFFB, not taken to 0xFFF from 0xFFD. -/
theorem witness_SkipsTestRegisters :
    nextAnd (exec (.seVxKk 1#4 0#8) (start 0xFFB#12)) (fun t => t.pc == 0xFFF#12) = true ∧
    nextAnd (exec (.sneVxKk 1#4 0#8) (start 0xFFD#12)) (fun t => t.pc == 0xFFF#12) = true ∧
    nextAnd (exec (.seVxVy 1#4 1#4) (start 0xFFB#12)) (fun t => t.pc == 0xFFF#12) = true ∧
    nextAnd (exec (.sneVxVy 1#4 1#4) (start 0xFFD#12)) (fun t => t.pc == 0xFFF#12) = true := by decide

/-- For the statements whose one hypothesis is that `pc + 2` is an address: the last `pc` that meets it, and each instruction
answers a next state there. -/
theorem witness_LoadsSetRegister :
    nextAnd (exec (.ldVxKk 0xF#4 0xFF#8) (start 0xFFD#12)) (fun t => t.pc == 0xFFF#12) = true ∧
    nextAnd (exec (.ldVxVy 0xF#4 0#4) (start 0xFFD#12)) (fun t => t.pc == 0xFFF#12) = true ∧
    nextAnd (exec (.ldINnn 0xFFF#12) (start 0xFFD#12)) (fun t => t.pc == 0xFFF#12) = true := by decide

theorem witness_AddImmediateWrapsWithoutFlag :
    nextAnd (exec (.addVxKk 0xF#4 0xFF#8) (start 0xFFD#12)) (fun t => t.pc == 0xFFF#12) = true := by decide

theorem witness_LogicIsBitwiseWithoutFlag :
    nextAnd (exec (.orVxVy 0xF#4 1#4) (start 0xFFD#12)) (fun t => t.pc == 0xFFF#12) = true ∧
    nextAnd (exec (.andVxVy 0xF#4 1#4) (start 0xFFD#12)) (fun t => t.pc == 0xFFF#12) = true ∧
    nextAnd (exec (.xorVxVy 0xF#4 1#4) (start 0xFFD#12)) (fun t => t.pc == 0xFFF#12) = true := by decide

/-- Both forms: the destination below `VF`, and `VF` itself. -/
theorem witness_AddSetsCarryLast :
    (0xE#4 : Nibble) ≠ 0xF#4 ∧ nextAnd (exec (.addVxVy 0xE#4 1#4) (start 0xFFD#12)) (fun t => t.pc == 0xFFF#12) = true ∧
    nextAnd (exec (.addVxVy 0xF#4 1#4) (start 0xFFD#12)) (fun t => t.pc == 0xFFF#12) = true := by decide

theorem witness_SubtractionsSetNoBorrowLast :
    (0xE#4 : Nibble) ≠ 0xF#4 ∧ nextAnd (exec (.subVxVy 0xE#4 1#4) (start 0xFFD#12)) (fun t => t.pc == 0xFFF#12) = true ∧
    nextAnd (exec (.subnVxVy 0xF#4 1#4) (start 0xFFD#12)) (fun t => t.pc == 0xFFF#12) = true := by decide

theorem witness_ShiftsAreInPlace :
    (0xE#4 : Nibble) ≠ 0xF#4 ∧ nextAnd (exec (.shrVxVy 0xE#4 1#4) (start 0xFFD#12)) (fun t => t.pc == 0xFFF#12) = true ∧
    nextAnd (exec (.shlVxVy 0xF#4 1#4) (start 0xFFD#12)) (fun t => t.pc == 0xFFF#12) = true := by decide

theorem witness_RandomByteIsMasked :
    nextAnd (exec (.rndVxKk 0xF#4 0#8) (start 0xFFD#12)) (fun t => t.pc == 0xFFF#12) = true := by decide

theorem witness_AddressRegisterArithmetic :
    nextAnd (exec (.addIVx 0xF#4) (start 0xFFD#12)) (fun t => t.pc == 0xFFF#12) = true ∧
    nextAnd (exec (.ldFVx 0xF#4) (start 0xFFD#12)) (fun t => t.pc == 0xFFF#12) = true := by decide

/-- The last `I` and the last `pc` that meet the hypotheses: the transfer fills the top of memory. -/
theorem witness_BcdStoresThreeDigits :
    ((start 0xFFD#12).setI 0xFFD#16).i.toNat + 2 ≤ 4095 ∧
    nextAnd (exec (.ldBVx 0xF#4) ((start 0xFFD#12).setI 0xFFD#16)) (fun t => t.pc == 0xFFF#12) = true := by decide

theorem witness_StoreRegisters :
    ((start 0xFFD#12).setI 0xFF0#16).i.toNat + (0xF#4).toNat ≤ 4095 ∧
    nextAnd (exec (.ldMemIVx 0xF#4) ((start 0xFFD#12).setI 0xFF0#16)) (fun t => t.pc == 0xFFF#12) = true := by decide

theorem witness_LoadRegisters :
    ((start 0xFFD#12).setI 0xFF0#16).i.toNat + (0xF#4).toNat ≤ 4095 ∧
    nextAnd (exec (.ldVxMemI 0xF#4) ((start 0xFFD#12).setI 0xFF0#16)) (fun t => t.pc == 0xFFF#12) = true := by decide

theorem witness_TransfersPastTheTopFault :
    4095 < (State.reset.setI 0xFFE#16).i.toNat + 2 ∧ 4095 < (State.reset.setI 0xFFF#16).i.toNat + (1#4).toNat := by decide

theorem witness_ClearScreen : nextAnd (exec .cls (start 0xFFD#12)) (fun t => t.pc == 0xFFF#12) = true := by decide

/-- X6 and X10: pixels where the sprite lands and where it does not, with a collision and with none. -/
theorem witness_DrawXorsSprite :
    spriteLit (((atI 0x300#16 (List.replicate 5 0xFF#8)).setV 0#4 62#8).setV 1#4 30#8) 0#4 1#4 5#4 63 31 ∧
    ¬ spriteLit State.reset 0#4 1#4 0#4 0 0 ∧
    (spriteLit ((atI 0x300#16 [0xC0#8]).setFb ((Vector.replicate 32 0#64).set 0 2#64)) 0#4 1#4 1#4 1 0 ∧
      ((atI 0x300#16 [0xC0#8]).setFb ((Vector.replicate 32 0#64).set 0 2#64)).pixel 1 0 = true) ∧
    (¬ ∃ (px : Fin 64) (py : Fin 32), spriteLit State.reset 0#4 1#4 0#4 px py ∧ State.reset.pixel px.val py.val = true) ∧
    nextAnd (exec (.drwVxVyN 0#4 1#4 5#4) (start 0xFFD#12)) (fun t => t.pc == 0xFFF#12) = true :=
  ⟨⟨1, 1, by decide⟩, fun ⟨_, _, h, _⟩ => absurd h (Nat.not_lt_zero _), ⟨⟨0, 1, by decide⟩, by decide⟩,
    fun ⟨_, _, ⟨_, _, h, _⟩, _⟩ => absurd h (Nat.not_lt_zero _), by decide⟩

/-- X6 and X7: the second draw runs, and a pixel of the sprite lands on a pixel unlit before the first; with `n = 0` none does. -/
theorem witness_DrawTwiceRestores :
    nextAnd (exec (.drwVxVyN 0#4 1#4 5#4) (((atI 0x300#16 (List.replicate 5 0xFF#8)).setV 0#4 62#8).setV 1#4 30#8))
      (fun t => t.getV 0#4 == 62#8 && t.getV 1#4 == 30#8 &&
        nextAnd (exec (.drwVxVyN 0#4 1#4 5#4) t) (fun u => u.getV 15#4 == 1#8)) = true ∧
    spriteLit (((atI 0x300#16 (List.replicate 5 0xFF#8)).setV 0#4 62#8).setV 1#4 30#8) 0#4 1#4 5#4 63 31 ∧
    (((atI 0x300#16 (List.replicate 5 0xFF#8)).setV 0#4 62#8).setV 1#4 30#8).pixel 63 31 = false ∧
    (¬ ∃ (px : Fin 64) (py : Fin 32), spriteLit State.reset 0#4 1#4 0#4 px py ∧ State.reset.pixel px.val py.val = false) :=
  ⟨by decide, ⟨1, 1, by decide⟩, by decide, fun ⟨_, _, ⟨_, _, h, _⟩, _⟩ => absurd h (Nat.not_lt_zero _)⟩

theorem witness_KeySkipsTestLevel :
    ((State.reset.setV 2#4 15#8).getV 2#4).toNat ≤ 15 ∧
    nextAnd (exec (.skpVx 2#4) (((start 0xFFB#12).setV 2#4 15#8).setKeypad 0x8000#16)) (fun t => t.pc == 0xFFF#12) = true ∧
    nextAnd (exec (.sknpVx 2#4) (((start 0xFFD#12).setV 2#4 15#8).setKeypad 0x8000#16)) (fun t => t.pc == 0xFFF#12) = true := by
  decide

theorem witness_KeyIndexPastFifteenFaults : 15 < ((State.reset.setV 2#4 16#8).getV 2#4).toNat := by decide

theorem witness_WaitKeyReexecutesOrCompletes :
    (start 0xFFE#12).env.keypad = 0#16 ∧ ((start 0xFFD#12).setKeypad 0x8000#16).env.keypad ≠ 0#16 ∧
    nextAnd (exec (.ldVxK 0xF#4) ((start 0xFFD#12).setKeypad 0x8000#16)) (fun t => t.pc == 0xFFF#12) = true := by decide

/-- K13: keys 2 and 9 are down. -/
theorem witness_EveryKeyDownMayBeChosen :
    ((start 0xFFD#12).setKeypad 0x0204#16).env.keypad.toNat / 2 ^ (2 : Fin 16).val % 2 = 1 ∧
    ((start 0xFFD#12).setKeypad 0x0204#16).env.keypad.toNat / 2 ^ (9 : Fin 16).val % 2 = 1 ∧
    ((start 0xFFD#12).setKeypad 0x0204#16).pc.toNat + 2 ≤ 0xFFF := by decide

theorem witness_TimerLoads :
    nextAnd (exec (.ldVxDt 0xF#4) (start 0xFFD#12)) (fun t => t.pc == 0xFFF#12) = true ∧
    nextAnd (exec (.ldDtVx 0xF#4) (start 0xFFD#12)) (fun t => t.pc == 0xFFF#12) = true ∧
    nextAnd (exec (.ldStVx 0xF#4) (start 0xFFD#12)) (fun t => t.pc == 0xFFF#12) = true := by decide

/-- A flag writer, a destination below `VF`, and an instruction with no destination. -/
theorem witness_FlagRegisterWriters :
    nextAnd (exec (.addVxVy 0#4 1#4) State.reset) (fun t => t.getV 15#4 == 0#8) = true ∧
    (0xE#4 : Nibble) ≠ 0xF#4 ∧ nextAnd (exec (.ldVxMemI 0xE#4) State.reset) (fun t => t.getV 15#4 == 0#8) = true ∧
    nextAnd (exec .cls State.reset) (fun t => t.getV 15#4 == 0#8) = true := by decide

theorem witness_SpecialStateWriters :
    nextAnd (exec (.callNnn 0x300#12) State.reset) (fun t => t.sp == 1) = true ∧
    nextAnd (exec (.ldINnn 0xFFF#12) State.reset) (fun t => t.i == 0xFFF#16) = true := by decide

/-- Both writers change a byte, at the first and at the last address they reach. -/
theorem witness_MemoryWriters :
    nextAnd (exec (.ldBVx 1#4) ((State.reset.setI 0x300#16).setV 1#4 255#8))
      (fun t => t.readByte 0x300#12 == 2#8 && t.readByte 0x302#12 == 5#8) = true ∧
    nextAnd (exec (.ldMemIVx 1#4) ((regs 0#4 1#8 1#4 2#8).setI 0xFFE#16))
      (fun t => t.readByte 0xFFE#12 == 1#8 && t.readByte 0xFFF#12 == 2#8) = true := by decide

theorem witness_MemoryIsUnreadByOthers :
    (∀ x, Instr.jpV0Nnn 0x300#12 ≠ .ldBVx x) ∧ (∀ x, Instr.jpV0Nnn 0x300#12 ≠ .ldMemIVx x) ∧
    (∀ x, Instr.jpV0Nnn 0x300#12 ≠ .ldVxMemI x) ∧ (∀ x y n, Instr.jpV0Nnn 0x300#12 ≠ .drwVxVyN x y n) := by simp

theorem witness_KeypadIsReadByThreeOnly :
    ((∀ x, Instr.ldBVx 1#4 ≠ .skpVx x) ∧ (∀ x, Instr.ldBVx 1#4 ≠ .sknpVx x) ∧ (∀ x, Instr.ldBVx 1#4 ≠ .ldVxK x)) ∧
    nextAnd (exec (.skpVx 2#4) (State.reset.setKeypad 1#16)) (fun t => t.env.keypad == 1#16) = true ∧
    nextAnd (exec (.ldVxK 2#4) (State.reset.setKeypad 1#16)) (fun t => t.env.keypad == 1#16) = true :=
  ⟨by simp, by decide, by decide⟩

theorem witness_SoundTimerIsUnread :
    (∀ x, Instr.ldVxDt 1#4 ≠ .ldStVx x) ∧ (∃ x, Instr.ldStVx 1#4 = .ldStVx x) := by simp

end Sys2Proof.Tests
end

section
/-! The step, from the two bytes at `pc` to the outcome of the instruction they decode to (spec/00_scope.md R13,
spec/20_memory.md R61). -/

namespace Sys2Proof.Machine

/-- The address after `pc`, as the statements write it, is the one that fetch reads. -/
theorem ofNat_toNat_succ (a : Addr) : BitVec.ofNat 12 (a.toNat + 1) = a + 1#12 := by
  simp [BitVec.ofNat_add]

/-- R61: the word at `pc` is its two bytes, big-endian. -/
theorem fetchWord_toNat (s : State) : s.fetchWord.toNat =
    256 * (s.readByte s.pc).toNat + (s.readByte (BitVec.ofNat 12 (s.pc.toNat + 1))).toNat := by
  rw [State.fetchWord, wordOfBytes_toNat, ofNat_toNat_succ]

/-- A word with the value of the two bytes at `pc` is the word that fetch reads. -/
theorem eq_fetchWord_of_toNat {s : State} {op : Word} (h : op.toNat =
    256 * (s.readByte s.pc).toNat + (s.readByte (BitVec.ofNat 12 (s.pc.toNat + 1))).toNat) : op = s.fetchWord :=
  BitVec.eq_of_toNat_eq (h.trans (fetchWord_toNat s).symm)

/-- R13: where fetch and decode succeed, the STEP is the execution of the instruction decoded. -/
theorem stepEvent_eq_exec {s : State} {i : Instr} (hrun : s.halted = false) (hpc : s.pc.toNat ≤ 0xFFE)
    (hdec : decode s.fetchWord = some i) : s.stepEvent = exec i s := by
  simp [State.stepEvent, hrun, fetch_of_le hpc, hdec]

/-- The host's turn follows a STEP that answers a next state (the converse of `step_next`). -/
theorem step_of_stepEvent_next {s t : State} (h : s.stepEvent = .next t) : step s = .next t.hostTurn := by
  rw [step, State.cycle, h, mapNext]

/-- Settles O6: the word given is the word fetched, so the STEP executes `i`; the host's turn changes a next state only. -/
theorem stepRunsDecodedInstruction : Obligations.StepRunsDecodedInstruction := by
  intro s op i hrun hpc hword hdec
  obtain rfl := eq_fetchWord_of_toNat hword
  have hexec : s.stepEvent = exec i s := stepEvent_eq_exec hrun hpc hdec
  exact ⟨fun t hnext => step_of_stepEvent_next (hexec.trans hnext),
    fun f hfault => step_fault_iff.2 (hexec.trans hfault)⟩

end Sys2Proof.Machine
end

section
/-! What an instruction writes, one case per kind of write, so that a statement about the whole machine is a split over
these cases (spec/10_state.md R20 to R37); and what `writeBytes` leaves alone. -/

namespace Sys2Proof.Machine

/-! ### What `writeBytes` leaves alone -/

section

variable (s : State) (base : Nat) (bs : List Byte)

@[simp] theorem State.writeBytes_v : (s.writeBytes base bs).v = s.v := by rw [s.writeBytes_eq]
@[simp] theorem State.writeBytes_i : (s.writeBytes base bs).i = s.i := by rw [s.writeBytes_eq]
@[simp] theorem State.writeBytes_pc : (s.writeBytes base bs).pc = s.pc := by rw [s.writeBytes_eq]
@[simp] theorem State.writeBytes_sp : (s.writeBytes base bs).sp = s.sp := by rw [s.writeBytes_eq]
@[simp] theorem State.writeBytes_stack : (s.writeBytes base bs).stack = s.stack := by rw [s.writeBytes_eq]
@[simp] theorem State.writeBytes_dt : (s.writeBytes base bs).dt = s.dt := by rw [s.writeBytes_eq]
@[simp] theorem State.writeBytes_st : (s.writeBytes base bs).st = s.st := by rw [s.writeBytes_eq]
@[simp] theorem State.writeBytes_fb : (s.writeBytes base bs).fb = s.fb := by rw [s.writeBytes_eq]
@[simp] theorem State.writeBytes_halted : (s.writeBytes base bs).halted = s.halted := by rw [s.writeBytes_eq]
@[simp] theorem State.writeBytes_fault : (s.writeBytes base bs).fault = s.fault := by rw [s.writeBytes_eq]
@[simp] theorem State.writeBytes_font : (s.writeBytes base bs).font = s.font := by rw [s.writeBytes_eq]
@[simp] theorem State.writeBytes_env : (s.writeBytes base bs).env = s.env := by rw [s.writeBytes_eq]
@[simp] theorem State.getV_writeBytes (y : Nibble) : (s.writeBytes base bs).getV y = s.getV y := by rw [s.writeBytes_eq]; rfl

end

/-! ### The kinds of writes -/

/-- `Writes s i s'`: `s'` is `s` with what instruction `i` may write, `pc` apart. Any instruction may set the registers; each
other part of the state has its own writers. -/
inductive Writes (s : State) : Instr → State → Prop
  | regs (i : Instr) (v : Vector Byte 16) : Writes s i (s.setRegs v)
  | random (x : Nibble) (kk : Byte) (v : Vector Byte 16) : Writes s (.rndVxKk x kk) (s.takeRandom.setRegs v)
  | sp (n : Fin 17) : Writes s .ret (s.setSp n)
  | stack (nnn : Addr) (k : Fin 16) (r : Addr) (n : Fin 17) : Writes s (.callNnn nnn) ((s.setStack k r).setSp n)
  | addr (nnn : Addr) : Writes s (.ldINnn nnn) (s.setI (BitVec.ofNat 16 nnn.toNat))
  | sum (x : Nibble) : Writes s (.addIVx x) (s.setI (BitVec.ofNat 16 (s.i.toNat + (s.getV x).toNat)))
  | glyph (x : Nibble) : Writes s (.ldFVx x) (s.setI (glyphAddr (s.getV x)))
  | dt (x : Nibble) (b : Byte) : Writes s (.ldDtVx x) (s.setDt b)
  | st (x : Nibble) (b : Byte) : Writes s (.ldStVx x) (s.setSt b)
  | clear (f : Frame) : Writes s .cls (s.setFb f)
  | draw (x y n : Nibble) (f : Frame) (v : Vector Byte 16) : Writes s (.drwVxVyN x y n) ((s.setFb f).setRegs v)
  | bcd (x : Nibble) (base : Nat) (bs : List Byte) : Writes s (.ldBVx x) (s.writeBytes base bs)
  | store (x : Nibble) (base : Nat) (bs : List Byte) : Writes s (.ldMemIVx x) (s.writeBytes base bs)

/-- An instruction that answers a next state makes one of its writes and sets `pc`. -/
theorem exec_next_writes {i : Instr} {s t : State} (h : exec i s = .next t) :
    ∃ a s', t = s'.setPc a ∧ Writes s i s' := by
  obtain ⟨s', ⟨new, rfl⟩, -, hs⟩ := exec_next_cases h
  refine ⟨_, s', rfl, ?_⟩
  cases i
  case cls => obtain rfl := hs; exact .clear _
  case ret => obtain ⟨n, rfl⟩ := hs; exact .sp n
  case callNnn => obtain ⟨k, r, n, rfl⟩ := hs; exact .stack _ k r n
  case ldINnn => obtain rfl := hs; exact .addr _
  case addIVx => obtain rfl := hs; exact .sum _
  case ldFVx => obtain rfl := hs; exact .glyph _
  case ldDtVx => obtain ⟨b, rfl⟩ := hs; exact .dt _ b
  case ldStVx => obtain ⟨b, rfl⟩ := hs; exact .st _ b
  case rndVxKk => obtain ⟨b, rfl⟩ := hs; exact .random _ _ _
  case drwVxVyN => obtain ⟨g, f, rfl⟩ := hs; exact .draw _ _ _ g _
  case ldBVx => obtain ⟨-, rfl⟩ := hs; exact .bcd _ _ _
  case ldMemIVx => obtain ⟨-, rfl⟩ := hs; exact .store _ _ _
  case ldVxMemI => obtain rfl := hs; exact .regs _ _
  case ldVxK => obtain rfl | ⟨b, rfl⟩ := hs <;> exact .regs _ _
  case sysNnn | jpNnn | seVxKk | sneVxKk | seVxVy | sneVxVy | jpV0Nnn | skpVx | sknpVx =>
    obtain rfl := hs; exact .regs _ s'.v
  case ldVxKk | addVxKk | ldVxVy | orVxVy | andVxVy | xorVxVy | ldVxDt => obtain ⟨b, rfl⟩ := hs; exact .regs _ _
  case addVxVy | subVxVy | shrVxVy | subnVxVy | shlVxVy => obtain ⟨b, f, rfl⟩ := hs; exact .regs _ _

end Sys2Proof.Machine
end

section
/-! The invariant: memory in canonical form, and the core halted exactly when it holds a fault record (spec/10_state.md R37,
spec/60_exceptions.md R257). -/

namespace Sys2Proof.Machine

/-- Settles O18: reset memory is canonical, and the reset state is neither halted nor holds a record. -/
theorem resetMeetsInvariant : Obligations.ResetMeetsInvariant := ⟨State.wf_reset, rfl⟩

/-- `writeBytes` keeps the invariant. -/
theorem State.inv_writeBytes {s : State} (base : Nat) (bs : List Byte) (h : s.Inv) : (s.writeBytes base bs).Inv := by
  obtain ⟨hwf, hhalt⟩ := h
  exact ⟨by simpa using s.wf_writeBytes base bs hwf, by simpa using hhalt⟩

/-- An instruction keeps the invariant: none touches the halted flag, the record or the font, and the two that write memory
keep it canonical. -/
theorem exec_keeps_inv {i : Instr} {s t : State} (hs : s.Inv) (h : exec i s = .next t) : t.Inv := by
  obtain ⟨a, s', rfl, hw⟩ := exec_next_writes h
  show s'.Inv
  cases hw with
  | bcd x base bs => exact State.inv_writeBytes base bs hs
  | store x base bs => exact State.inv_writeBytes base bs hs
  | _ => exact hs

/-- Settles O19: the instruction decoded keeps the invariant, and the host's turn touches none of it. -/
theorem stepKeepsInvariant : Obligations.StepKeepsInvariant := by
  intro s t hs h
  obtain ⟨u, hu, rfl⟩ := step_next h
  obtain ⟨i, -, -, hexec⟩ := stepEvent_next hu
  have hinv : u.Inv := exec_keeps_inv hs hexec
  exact hinv

end Sys2Proof.Machine
end

section
/-! Rules about the whole machine: who writes `I`, the stack, the timers, the framebuffer and `VF` (spec/10_state.md R21 to
R34). -/

namespace Sys2Proof.Machine

/-! ### `I`, the stack, the timers and the framebuffer -/

/-- Settles O56: each kind of write is made by its own instructions and leaves the other parts alone. -/
theorem specialStateWriters : Obligations.SpecialStateWriters := by
  intro i s t h
  obtain ⟨a, s', rfl, hw⟩ := exec_next_writes h
  cases hw <;> simp

/-- A glyph address is below the end of the font (R192). -/
theorem glyphAddr_toNat_le (v : Byte) : (glyphAddr v).toNat ≤ 75 := by
  have hdigit : v.toNat % 16 < 16 := Nat.mod_lt _ (by decide)
  rw [glyphAddr, BitVec.toNat_ofNat]
  exact (Nat.mod_le _ _).trans (by omega)

/-- R24, R40: an instruction keeps `I` at most 4095, but for an `ADD I` whose sum exceeds it. -/
theorem exec_i_le {i : Instr} {s t : State} (hi : s.i.toNat ≤ 4095) (h : exec i s = .next t)
    (hsum : ∀ x, i = .addIVx x → s.i.toNat + (s.getV x).toNat ≤ 4095) : t.i.toNat ≤ 4095 := by
  obtain ⟨a, s', rfl, hw⟩ := exec_next_writes h
  rw [State.setPc_i]
  cases hw with
  | addr nnn =>
    have := nnn.isLt
    simp only [State.setI_i, BitVec.toNat_ofNat]
    omega
  | sum x =>
    have := hsum x rfl
    simp only [State.setI_i, BitVec.toNat_ofNat]
    omega
  | glyph x => exact (glyphAddr_toNat_le _).trans (by decide)
  | _ => simpa using hi

/-- Settles O21: the step executes the instruction decoded, and the host's turn leaves `I` alone. -/
theorem iStaysTwelveBitsButForAddI : Obligations.IStaysTwelveBitsButForAddI := by
  intro s t hi h hsum
  obtain ⟨u, hu, rfl⟩ := step_next h
  obtain ⟨i, -, hdec, hexec⟩ := stepEvent_next hu
  rw [State.hostTurn_i]
  exact exec_i_le hi hexec fun x hx => hsum x (hx ▸ hdec)

/-! ### `VF` -/

/-- A flag is 0 or 1. -/
theorem flagByte_toNat_le (f : Bool) : (flagByte f).toNat ≤ 1 := by cases f <;> decide

/-- `LD Vx, [I]` with `x` below 15 leaves `VF` as it was. -/
theorem getV_vf_setRegs_loadedRegs (s : State) {x : Nibble} (hx : x ≠ vf) :
    (s.setRegs (loadedRegs s x)).getV vf = s.getV vf := by
  have hlt : ¬ 15 ≤ x.toNat := fun hle => hx (BitVec.eq_of_toNat_eq (by have := x.isLt; simp; omega))
  simp [loadedRegs, State.getV, hlt]

/-- Settles O55: a flag writer ends by writing a flag to `VF`; a write to another register and every other instruction leave it
as it was. -/
theorem flagRegisterWriters : Obligations.FlagRegisterWriters := by
  intro i s t h
  obtain ⟨s', ⟨new, rfl⟩, -, hs⟩ := exec_next_cases h
  cases i <;> simp only [State.getV_setPc] <;> dsimp only at hs
  case addVxVy | subVxVy | shrVxVy | subnVxVy | shlVxVy | drwVxVyN =>
    obtain ⟨b, f, rfl⟩ := hs
    simpa using flagByte_toNat_le f
  case ldVxKk | addVxKk | ldVxVy | orVxVy | andVxVy | xorVxVy | ldVxDt | rndVxKk =>
    obtain ⟨b, rfl⟩ := hs
    exact fun hx => State.getV_setV_ne _ _ _ _ hx.symm
  case ldVxK =>
    obtain rfl | ⟨b, rfl⟩ := hs
    · exact fun _ => rfl
    · exact fun hx => State.getV_setV_ne _ _ _ _ hx.symm
  case ldVxMemI =>
    obtain rfl := hs
    exact getV_vf_setRegs_loadedRegs s
  case callNnn => obtain ⟨k, r, n, rfl⟩ := hs; rfl
  case ret | ldDtVx | ldStVx => obtain ⟨b, rfl⟩ := hs; rfl
  case ldBVx | ldMemIVx => obtain ⟨-, rfl⟩ := hs; exact State.getV_writeBytes _ _ _ _
  all_goals obtain rfl := hs; rfl

end Sys2Proof.Machine
end

section
/-! `RET` and `CALL` by what the stack holds: one equation per case (spec/40_flow.md R131, R133). -/

namespace Sys2Proof.Machine

variable {s : State}

/-- `SP` is 0 or one past the index of a stack entry (R27). -/
theorem State.sp_eq_zero_or_succ (s : State) : s.sp.val = 0 ∨ ∃ k : Fin 16, s.sp.val = k.val + 1 := by
  rcases Nat.eq_zero_or_pos s.sp.val with h | h
  · exact .inl h
  · exact .inr ⟨⟨s.sp.val - 1, by omega⟩, by simp only; omega⟩

/-- `SP` is below 16 or the stack is full (R27). -/
theorem State.sp_lt_or_full (s : State) : s.sp.val < 16 ∨ s.sp.val = 16 := by omega

theorem execRet_of_zero (h : s.sp.val = 0) : execRet s = .fault (.stackUnderflow s.pc (encode .ret)) := by
  rw [execRet, pop_of_zero h]
  rfl

theorem execRet_of_succ {k : Fin 16} (h : s.sp.val = k.val + 1) :
    execRet s = jump (encode .ret) s.stack[k].toNat (s.setSp k.castSucc) := by
  rw [execRet, pop_of_succ h]

theorem execCallNnn_of_full {nnn : Addr} (h : s.sp.val = 16) :
    execCallNnn nnn s = .fault (.stackOverflow s.pc (encode (.callNnn nnn))) := by
  rw [execCallNnn, push_of_full h]
  rfl

theorem execCallNnn_of_gt {nnn : Addr} (h : s.sp.val < 16) (hpc : 0xFFF < s.pc.toNat + 2) :
    execCallNnn nnn s = .fault (.pcOutOfRange s.pc (some (encode (.callNnn nnn)))) := by
  rw [execCallNnn, push_of_lt h]
  exact if_neg (Nat.not_le.2 hpc)

theorem execCallNnn_of_lt {nnn : Addr} (h : s.sp.val < 16) (hpc : s.pc.toNat + 2 ≤ 0xFFF) :
    execCallNnn nnn s = jump (encode (.callNnn nnn)) nnn.toNat
      ((s.setStack ⟨s.sp.val, h⟩ (BitVec.ofNat 12 (s.pc.toNat + 2))).setSp ⟨s.sp.val + 1, Nat.succ_lt_succ h⟩) := by
  rw [execCallNnn, push_of_lt h]
  exact if_pos hpc

end Sys2Proof.Machine
end

section
/-! What no instruction reads: `ST`, and the keypad but for three instructions (spec/10_state.md R29, R35). Both are said of one
update of the two parts. -/

namespace Sys2Proof.Machine

/-- The state with `ST` changed by `f` and the keypad by `g`. -/
def State.mapStKeypad (f : Byte → Byte) (g : BitVec 16 → BitVec 16) (s : State) : State :=
  { s with st := f s.st, env := { s.env with keypad := g s.env.keypad } }

theorem State.mapStKeypad_const_id (b : Byte) : State.mapStKeypad (fun _ => b) id = fun s => s.setSt b := rfl

theorem State.mapStKeypad_id_const (keys : BitVec 16) :
    State.mapStKeypad id (fun _ => keys) = fun s => s.setKeypad keys := rfl

section

variable {op : Word} {s : State} (f : Byte → Byte) (g : BitVec 16 → BitVec 16)

/-- The end of an instruction looks at `pc` alone. -/
theorem jump_mapStKeypad {u : State} {new : Nat} (hu : u = s.mapStKeypad f g) :
    jump op new u = mapNext (State.mapStKeypad f g) (jump op new s) := by
  subst hu
  unfold jump
  split <;> rfl

theorem advance_mapStKeypad {u : State} (hu : u = s.mapStKeypad f g) :
    advance op u = mapNext (State.mapStKeypad f g) (advance op s) := by
  subst hu
  exact jump_mapStKeypad f g rfl

/-- A checked transfer looks at `I` and then runs. -/
theorem checkedThroughI_mapStKeypad {k : Nat} {run : State → Host.Outcome State Fault Refusal}
    (hrun : run (s.mapStKeypad f g) = mapNext (State.mapStKeypad f g) (run s)) :
    checkedThroughI op k (s.mapStKeypad f g) run = mapNext (State.mapStKeypad f g) (checkedThroughI op k s run) := by
  rcases Nat.lt_or_ge 4095 (s.i.toNat + k) with h | h
  · rw [checkedThroughI_of_gt h, checkedThroughI_of_gt (s := s.mapStKeypad f g) h]
    rfl
  · rw [checkedThroughI_of_le h, checkedThroughI_of_le (s := s.mapStKeypad f g) h]
    exact hrun

theorem State.writeBytes_mapStKeypad (s : State) (base : Nat) (bs : List Byte) :
    (s.mapStKeypad f g).writeBytes base bs = (s.writeBytes base bs).mapStKeypad f g := by
  induction bs generalizing s base with
  | nil => rfl
  | cons b rest ih => exact ih (s.writeByte (BitVec.ofNat 12 base) b) (base + 1)

/-- `LD Vx, [I]` loads from memory at `I`, and reads no `ST` and no keypad. -/
theorem State.setRegs_loadedRegs_mapStKeypad (s : State) (x : Nibble) :
    (s.mapStKeypad f g).setRegs (loadedRegs (s.mapStKeypad f g) x) = (s.setRegs (loadedRegs s x)).mapStKeypad f g := by
  have hregs : loadedRegs (s.mapStKeypad f g) x = loadedRegs s x := rfl
  rw [hregs]
  generalize loadedRegs s x = v
  rfl

theorem execRet_mapStKeypad : execRet (s.mapStKeypad f g) = mapNext (State.mapStKeypad f g) (execRet s) := by
  rcases s.sp_eq_zero_or_succ with h | ⟨k, h⟩
  · rw [execRet_of_zero h, execRet_of_zero (s := s.mapStKeypad f g) h]
    rfl
  · rw [execRet_of_succ h, execRet_of_succ (s := s.mapStKeypad f g) h]
    exact jump_mapStKeypad f g rfl

theorem execCallNnn_mapStKeypad (nnn : Addr) :
    execCallNnn nnn (s.mapStKeypad f g) = mapNext (State.mapStKeypad f g) (execCallNnn nnn s) := by
  rcases s.sp_lt_or_full with h | h
  · rcases Nat.lt_or_ge 0xFFF (s.pc.toNat + 2) with hpc | hpc
    · rw [execCallNnn_of_gt h hpc, execCallNnn_of_gt (s := s.mapStKeypad f g) h hpc]
      rfl
    · rw [execCallNnn_of_lt h hpc, execCallNnn_of_lt (s := s.mapStKeypad f g) h hpc]
      exact jump_mapStKeypad f g rfl
  · rw [execCallNnn_of_full h, execCallNnn_of_full (s := s.mapStKeypad f g) h]
    rfl

/-- A skip on a key reads the keypad, and no `ST`. -/
theorem skipIfKey_mapStKeypad (x : Nibble) (want : Bool) :
    skipIfKey op x want (s.mapStKeypad f id) = mapNext (State.mapStKeypad f id) (skipIfKey op x want s) := by
  unfold skipIfKey
  split
  · rw [if_pos (by assumption)]
    exact jump_mapStKeypad f id rfl
  · rw [if_neg (by assumption)]
    rfl

/-- `LD Vx, K` reads the keypad, and no `ST`. -/
theorem execLdVxK_mapStKeypad (x : Nibble) :
    execLdVxK x (s.mapStKeypad f id) = mapNext (State.mapStKeypad f id) (execLdVxK x s) := by
  have henv : (s.mapStKeypad f id).env = s.env := rfl
  unfold execLdVxK
  rw [henv]
  split <;> exact jump_mapStKeypad f id rfl

/-- An instruction answers the same with `ST` and the keypad changed, if `LD ST, Vx` finds `ST` unchanged and the three
instructions that read the keypad find the keypad unchanged. -/
theorem exec_mapStKeypad (i : Instr) (hst : (∃ x, i = .ldStVx x) → f = id)
    (hkeys : (∃ x, i = .skpVx x ∨ i = .sknpVx x ∨ i = .ldVxK x) → g = id) :
    exec i (s.mapStKeypad f g) = mapNext (State.mapStKeypad f g) (exec i s) := by
  cases i
  case ret => exact execRet_mapStKeypad f g
  case callNnn nnn => exact execCallNnn_mapStKeypad f g nnn
  case ldBVx x =>
    dsimp only [exec, execLdBVx]
    refine checkedThroughI_mapStKeypad f g ?_
    exact advance_mapStKeypad f g (s.writeBytes_mapStKeypad f g s.i.toNat (bcdDigits (s.getV x)))
  case ldMemIVx x =>
    dsimp only [exec, execLdMemIVx]
    refine checkedThroughI_mapStKeypad f g ?_
    exact advance_mapStKeypad f g (s.writeBytes_mapStKeypad f g s.i.toNat (regsUpTo s x))
  case ldVxMemI x =>
    dsimp only [exec, execLdVxMemI]
    refine checkedThroughI_mapStKeypad f g ?_
    exact advance_mapStKeypad f g (s.setRegs_loadedRegs_mapStKeypad f g x)
  case ldStVx x => obtain rfl := hst ⟨x, rfl⟩; exact jump_mapStKeypad id g rfl
  case skpVx x => obtain rfl := hkeys ⟨x, by simp⟩; exact skipIfKey_mapStKeypad f x true
  case sknpVx x => obtain rfl := hkeys ⟨x, by simp⟩; exact skipIfKey_mapStKeypad f x false
  case ldVxK x => obtain rfl := hkeys ⟨x, by simp⟩; exact execLdVxK_mapStKeypad f x
  all_goals exact jump_mapStKeypad f g rfl

end

/-- No instruction writes the keypad. -/
theorem exec_keypad {i : Instr} {s t : State} (h : exec i s = .next t) : t.env.keypad = s.env.keypad := by
  obtain ⟨a, s', rfl, hw⟩ := exec_next_writes h
  cases hw <;> simp

/-- Settles O59: the update of the keypad alone passes through every instruction that does not read it. -/
theorem keypadIsReadByThreeOnly : Obligations.KeypadIsReadByThreeOnly := by
  refine ⟨fun i s keys hskp hsknp hwait => ?_, fun i s t h => exec_keypad h⟩
  rw [← State.mapStKeypad_id_const]
  refine exec_mapStKeypad id (fun _ => keys) i (fun _ => rfl) ?_
  rintro ⟨x, rfl | rfl | rfl⟩
  · exact absurd rfl (hskp x)
  · exact absurd rfl (hsknp x)
  · exact absurd rfl (hwait x)

/-- Settles O60: the update of `ST` alone passes through every instruction but `LD ST, Vx`, which writes over it. -/
theorem soundTimerIsUnread : Obligations.SoundTimerIsUnread := by
  refine fun i s b => ⟨fun hne => ?_, ?_⟩
  · rw [← State.mapStKeypad_const_id]
    exact exec_mapStKeypad (fun _ => b) id i (fun ⟨x, hx⟩ => absurd hx (hne x)) (fun _ => rfl)
  · rintro ⟨x, rfl⟩
    rfl

end Sys2Proof.Machine
end

section
/-! A word is its fields put back together, so the word of an instruction decoded is the word it was decoded from
(spec/30_encoding.md R91, R92, R100). -/

namespace Sys2Proof

variable {op : Word} {h n : Nibble} {kk : Byte}

/-- A word of format NNN whose first digit is `h`. -/
theorem wordNnn_of_digit (hh : (op.extractLsb' 12 4).toNat = h.toNat) : wordNnn h (fieldNnn op) = op := by
  apply BitVec.eq_of_toNat_eq
  rw [topDigit_toNat] at hh
  rw [wordNnn_toNat, fieldNnn_toNat]
  omega

/-- A word of format XKK whose first digit is `h` and whose low byte is `kk`. -/
theorem wordXKk_of_digits (hh : (op.extractLsb' 12 4).toNat = h.toNat) (hkk : (fieldKk op).toNat = kk.toNat) :
    wordXKk h (fieldX op) kk = op := by
  apply BitVec.eq_of_toNat_eq
  rw [topDigit_toNat] at hh
  rw [fieldKk_toNat] at hkk
  rw [wordXKk_toNat, fieldX_toNat]
  omega

/-- A word of format XYN whose first digit is `h` and whose last digit is `n`. -/
theorem wordXYN_of_digits (hh : (op.extractLsb' 12 4).toNat = h.toNat) (hn : (fieldN op).toNat = n.toNat) :
    wordXYN h (fieldX op) (fieldY op) n = op := by
  apply BitVec.eq_of_toNat_eq
  rw [topDigit_toNat] at hh
  rw [fieldN_toNat] at hn
  rw [wordXYN_toNat, fieldX_toNat, fieldY_toNat]
  omega

theorem encode_of_decode8 {i : Instr} (hh : (op.extractLsb' 12 4).toNat = 8) (hdec : decode8 op = some i) :
    encode i = op := by
  unfold decode8 at hdec
  split at hdec <;> cases hdec <;> exact wordXYN_of_digits hh (by assumption)

theorem encode_of_decodeE {i : Instr} (hh : (op.extractLsb' 12 4).toNat = 14) (hdec : decodeE op = some i) :
    encode i = op := by
  unfold decodeE at hdec
  split at hdec <;> cases hdec <;> exact wordXKk_of_digits hh (by assumption)

theorem encode_of_decodeF {i : Instr} (hh : (op.extractLsb' 12 4).toNat = 15) (hdec : decodeF op = some i) :
    encode i = op := by
  unfold decodeF at hdec
  split at hdec <;> cases hdec <;> exact wordXKk_of_digits hh (by assumption)

/-- R100: the encoding of the instruction a word decodes to is that word. -/
theorem encode_of_decode {i : Instr} (hdec : decode op = some i) : encode i = op := by
  unfold decode at hdec
  split at hdec
  case h_1 hh =>
    split at hdec
    · cases hdec; exact Eq.symm (by assumption)
    · split at hdec
      · cases hdec; exact Eq.symm (by assumption)
      · cases hdec; exact wordNnn_of_digit hh
  case h_2 hh | h_3 hh | h_11 hh | h_12 hh => cases hdec; exact wordNnn_of_digit hh
  case h_4 hh | h_5 hh | h_7 hh | h_8 hh | h_13 hh => cases hdec; exact wordXKk_of_digits hh rfl
  case h_6 hh | h_10 hh =>
    split at hdec
    · cases hdec; exact wordXYN_of_digits hh (congrArg BitVec.toNat (by assumption))
    · cases hdec
  case h_14 hh => cases hdec; exact wordXYN_of_digits hh rfl
  case h_9 hh => exact encode_of_decode8 hh hdec
  case h_15 hh => exact encode_of_decodeE hh hdec
  case h_16 hh => exact encode_of_decodeF hh hdec
  case h_17 => cases hdec

end Sys2Proof
end

section
/-! The fault record: the address and the word of the faulting instruction (spec/10_state.md R37, spec/60_exceptions.md R254). -/

namespace Sys2Proof.Machine

/-- Every fault in the outcome `o` records the address `a` and the word `op`. -/
def FaultsAt (a : Addr) (op : Word) (o : Host.Outcome State Fault Refusal) : Prop :=
  ∀ f, o = .fault f → f.addr = a ∧ f.word = some op

variable {a : Addr} {op : Word} {s : State}

theorem faultsAt_fault {f : Fault} (haddr : f.addr = a) (hword : f.word = some op) : FaultsAt a op (.fault f) := by
  rintro _ ⟨⟩
  exact ⟨haddr, hword⟩

theorem faultsAt_jump {new : Nat} (hpc : s.pc = a) : FaultsAt a op (jump op new s) := by
  intro f hf
  obtain ⟨-, rfl⟩ := jump_fault_iff.1 hf
  exact ⟨hpc, rfl⟩

theorem faultsAt_advance (hpc : s.pc = a) : FaultsAt a op (advance op s) := faultsAt_jump hpc

theorem faultsAt_checkedThroughI {k : Nat} {run : State → Host.Outcome State Fault Refusal}
    (hrun : FaultsAt s.pc op (run s)) : FaultsAt s.pc op (checkedThroughI op k s run) := by
  rcases Nat.lt_or_ge 4095 (s.i.toNat + k) with h | h
  · rw [checkedThroughI_of_gt h]
    exact faultsAt_fault rfl rfl
  · rw [checkedThroughI_of_le (by omega)]
    exact hrun

theorem faultsAt_skipIfKey {x : Nibble} {want : Bool} : FaultsAt s.pc op (skipIfKey op x want s) := by
  unfold skipIfKey
  split
  · exact faultsAt_jump rfl
  · exact faultsAt_fault rfl rfl

theorem faultsAt_execRet : FaultsAt s.pc (encode .ret) (execRet s) := by
  rcases s.sp_eq_zero_or_succ with h | ⟨k, h⟩
  · rw [execRet_of_zero h]
    exact faultsAt_fault rfl rfl
  · rw [execRet_of_succ h]
    exact faultsAt_jump rfl

theorem faultsAt_execCallNnn {nnn : Addr} : FaultsAt s.pc (encode (.callNnn nnn)) (execCallNnn nnn s) := by
  rcases s.sp_lt_or_full with h | h
  · rcases Nat.lt_or_ge 0xFFF (s.pc.toNat + 2) with hpc | hpc
    · rw [execCallNnn_of_gt h hpc]
      exact faultsAt_fault rfl rfl
    · rw [execCallNnn_of_lt h hpc]
      exact faultsAt_jump rfl
  · rw [execCallNnn_of_full h]
    exact faultsAt_fault rfl rfl

theorem faultsAt_execLdVxK {x : Nibble} : FaultsAt s.pc (encode (.ldVxK x)) (execLdVxK x s) := by
  unfold execLdVxK
  split <;> exact faultsAt_jump rfl

/-- R37: an instruction that faults records its own address and its own word. -/
theorem exec_faultsAt (i : Instr) (s : State) : FaultsAt s.pc (encode i) (exec i s) := by
  cases i
  case ret => exact faultsAt_execRet
  case callNnn => exact faultsAt_execCallNnn
  case skpVx | sknpVx => exact faultsAt_skipIfKey
  case ldVxK => exact faultsAt_execLdVxK
  case ldBVx | ldMemIVx =>
    dsimp only [exec, execLdBVx, execLdMemIVx]
    refine faultsAt_checkedThroughI ?_
    exact faultsAt_advance (State.writeBytes_pc _ _ _)
  case ldVxMemI =>
    dsimp only [exec, execLdVxMemI]
    refine faultsAt_checkedThroughI ?_
    exact faultsAt_advance (State.setRegs_pc _ _)
  all_goals exact faultsAt_jump rfl

/-- A STEP that faults below the top of memory records its address and the word fetched. -/
theorem stepEvent_faultsAt (hpc : s.pc ≠ 0xFFF#12) : FaultsAt s.pc s.fetchWord s.stepEvent := by
  rcases stepEvent_cases s with ⟨-, e⟩ | ⟨-, htop, -⟩ | ⟨-, -, -, e⟩ | ⟨-, -, i, hdec, e⟩
  · rw [e]
    nofun
  · exact absurd htop hpc
  · rw [e]
    exact faultsAt_fault rfl rfl
  · rw [e, ← encode_of_decode hdec]
    exact exec_faultsAt i s

/-- A STEP at 0xFFF that faults does so at fetch, with no word. -/
theorem stepEvent_fault_of_top {f : Fault} (hpc : s.pc = 0xFFF#12) (h : s.stepEvent = .fault f) :
    f = .pcOutOfRange s.pc none := by
  have hgt : ¬ s.pc.toNat ≤ 0xFFE := by rw [hpc]; decide
  rcases stepEvent_cases s with ⟨-, e⟩ | ⟨-, -, e⟩ | ⟨-, hle, -⟩ | ⟨-, hle, -⟩
  · rw [e] at h; cases h
  · rw [e] at h; cases h; rfl
  · exact absurd hle hgt
  · exact absurd hle hgt

/-- Settles O10: at 0xFFF the fetch faults; anywhere else the word recorded is the word fetched, which is the two bytes at
`pc`. -/
theorem faultRecordNamesInstruction : Obligations.FaultRecordNamesInstruction := by
  intro s f h
  rw [step_fault_iff] at h
  by_cases hpc : s.pc = 0xFFF#12
  · obtain rfl := stepEvent_fault_of_top hpc h
    exact ⟨rfl, fun _ => rfl, fun hne => absurd hpc hne⟩
  · obtain ⟨haddr, hword⟩ := stepEvent_faultsAt hpc f h
    exact ⟨haddr, fun htop => absurd htop hpc, fun _ => ⟨_, hword, fetchWord_toNat s⟩⟩

end Sys2Proof.Machine
end

section
/-! Fault entry and the one way out of a halted core (spec/10_state.md R37, spec/60_exceptions.md R257, R260), and the values of
reset (R39). -/

namespace Sys2Proof.Machine

/-- Nothing changes between a state and itself. -/
theorem OnlyChanges.refl (parts : Set Part) (s : State) : OnlyChanges parts s s := by simp [OnlyChanges]

/-- R260: a halted core executes no STEP. -/
theorem stepEvent_of_halted {s : State} (h : s.halted = true) : s.stepEvent = .refused .halted := by
  simp [State.stepEvent, h]

/-- R260: no event but RESET changes the halted flag or the fault record of a halted core. -/
theorem settle_event_of_halted {s : State} (h : s.halted = true) {e : Event} (he : ∀ rom, e ≠ .reset rom) :
    (s.settle (s.event e)).halted = true ∧ (s.settle (s.event e)).fault = s.fault := by
  cases e with
  | reset rom => exact absurd rfl (he rom)
  | step pick =>
    have hrefused : s.event (.step pick) = .refused .halted := stepEvent_of_halted (s := s.setKeyPick pick) h
    rw [hrefused]
    exact ⟨h, rfl⟩
  | tick =>
    have hrefused : s.event .tick = .refused .halted := if_pos h
    rw [hrefused]
    exact ⟨h, rfl⟩
  | keypad keys => exact ⟨h, rfl⟩

/-- R260, R292: RESET with a ROM that fits answers a next state that is not halted and holds no fault record. -/
theorem resetEvent_clears_halt (s : State) {rom : List Byte} (h : rom.length ≤ 3584) :
    ∃ u, s.resetEvent rom = .next u ∧ u.halted = false ∧ u.fault = none :=
  ⟨_, if_pos h, State.writeBytes_halted _ _ _, State.writeBytes_fault _ _ _⟩

/-- Settles O9: a STEP that faults leaves `s.halt f`, and a halted core is led out by RESET alone. -/
theorem faultEntryAndExit : Obligations.FaultEntryAndExit := by
  intro s f h
  have hsettle : s.settle s.stepEvent = s.halt f := by rw [h, State.settle]
  rw [hsettle]
  have hstep : step (s.halt f) = .refused .halted := by
    rw [step, State.cycle, stepEvent_of_halted (State.halt_halted s f), mapNext]
  exact ⟨rfl, rfl, rfl, OnlyChanges.refl ∅ (s.halt f), hstep, fun e he => settle_event_of_halted rfl he,
    fun rom hrom => resetEvent_clears_halt (s.halt f) hrom⟩

/-- R31, R39: a byte of reset memory below the end of the font is the font's. -/
theorem readByte_reset_font (k : Fin 80) : State.reset.readByte (BitVec.ofNat 12 k.val) = State.reset.font[k] := by
  have hk : (BitVec.ofNat 12 k.val).toNat = k.val := toNat_pc_of_le (by omega)
  rw [State.readByte, hk]
  exact dif_pos k.isLt

/-- R31, R39: a byte of reset memory past the font is 0. -/
theorem readByte_reset_of_ge {a : Addr} (h : 80 ≤ a.toNat) : State.reset.readByte a = 0#8 := dif_neg (Nat.not_lt.2 h)

/-- Settles O14: the font and the bytes past it by the two lemmas above, and every other part as `State.reset` gives it. -/
theorem resetValues : Obligations.ResetValues := by
  refine ⟨fun r => ?_, rfl, rfl, rfl, fun k => ?_, rfl, rfl, fun a ha => readByte_reset_of_ge ha, readByte_reset_font,
    fun x y => ?_, rfl, rfl⟩
  · exact Vector.getElem_replicate r.isLt
  · exact Vector.getElem_replicate k.isLt
  · simp [State.pixel, pixelAt, State.reset]

end Sys2Proof.Machine
end

section
/-! Fetch and single bytes of memory (spec/20_memory.md R61, R66, R71). -/

namespace Sys2Proof.Machine

/-- Settles O22: a read after a write, at the address written and at any other. -/
theorem readAfterWrite : Obligations.ReadAfterWrite := by
  intro s a b
  refine ⟨?_, fun a' hne => ?_⟩
  · rw [State.readByte_writeByte, if_pos rfl]
  · rw [State.readByte_writeByte, if_neg hne]

/-- Settles O23: the fetch succeeds, and its word is the two bytes, the one at `pc` first. -/
theorem fetchIsBigEndian : Obligations.FetchIsBigEndian :=
  fun s hpc => ⟨s.fetchWord, fetch_of_le hpc, fetchWord_toNat s⟩

/-- R71, R254: the fetch at 0xFFF faults, with no word. -/
theorem stepEvent_of_top {s : State} (hrun : s.halted = false) (hpc : s.pc = 0xFFF#12) :
    s.stepEvent = .fault (.pcOutOfRange 0xFFF#12 none) := by
  simp [State.stepEvent, State.fetch, hrun, hpc]

/-- Settles O8: the byte written changes neither the halted flag nor `pc`. -/
theorem fetchAtTopFaults : Obligations.FetchAtTopFaults := by
  intro s a b hrun hpc
  have hrun' : (s.writeByte a b).halted = false := hrun
  have hpc' : (s.writeByte a b).pc = 0xFFF#12 := hpc
  exact step_fault_iff.2 (stepEvent_of_top hrun' hpc')

end Sys2Proof.Machine
end

section
/-! Bytes written in a row (spec/20_memory.md R62, R64), and a word placed where the next STEP fetches it. -/

namespace Sys2Proof.Machine

variable {s : State} {base : Nat} {bs : List Byte}

/-- Only a byte at one of the addresses written reads otherwise than before. -/
theorem address_of_readByte_writeBytes_ne {a : Addr} (hlen : base + bs.length ≤ 4096)
    (hdiff : (s.writeBytes base bs).readByte a ≠ s.readByte a) : base ≤ a.toNat ∧ a.toNat < base + bs.length := by
  by_contra ha
  exact hdiff (by rw [State.readByte_writeBytes s base bs a hlen, dif_neg ha])

/-- Writing bytes in a row changes nothing but the bytes at their addresses. -/
theorem onlyChanges_writeBytes {parts : Set Part} (hlen : base + bs.length ≤ 4096)
    (hparts : ∀ a : Addr, base ≤ a.toNat → a.toNat < base + bs.length → Part.byte a ∈ parts) :
    OnlyChanges parts s (s.writeBytes base bs) := by
  have hbytes : ∀ a, Part.byte a ∉ parts → (s.writeBytes base bs).readByte a = s.readByte a := by
    intro a ha
    by_contra hdiff
    obtain ⟨hlo, hhi⟩ := address_of_readByte_writeBytes_ne hlen hdiff
    exact ha (hparts a hlo hhi)
  simp +contextual [OnlyChanges, State.pixel, hbytes]

/-- The address after `a`, where there is one. -/
theorem toNat_add_one {a : Addr} (ha : a.toNat ≤ 0xFFE) : (a + 1#12).toNat = a.toNat + 1 := by
  rw [← ofNat_toNat_succ, toNat_pc_of_le (by omega)]

/-- R61, R100: the two bytes of a word, put together again. -/
theorem wordOfBytes_extractLsb' (w : Word) : wordOfBytes (w.extractLsb' 8 8) (w.extractLsb' 0 8) = w := by
  apply BitVec.eq_of_toNat_eq
  have := w.isLt
  rw [wordOfBytes_toNat, BitVec.extractLsb'_toNat, BitVec.extractLsb'_toNat, Nat.shiftRight_eq_div_pow, Nat.shiftRight_zero]
  omega

/-- `withFetchWord` writes the two bytes of the word, from `pc` up. -/
theorem withFetchWord_eq_writeBytes {w : Nat} (hw : w < 65536) : s.withFetchWord 16 w =
    s.writeBytes s.pc.toNat [(BitVec.ofNat 16 w).extractLsb' 8 8, (BitVec.ofNat 16 w).extractLsb' 0 8] := by
  rw [State.withFetchWord, State.placeWord, bytesOfTableWord, show w % 2 ^ 16 = w from Nat.mod_eq_of_lt hw]

/-- Two bytes written from `pc` up are the bytes of the word at `pc`. -/
theorem fetchWord_writeBytes_pc {hi lo : Byte} (hpc : s.pc.toNat ≤ 0xFFE) :
    (s.writeBytes s.pc.toNat [hi, lo]).fetchWord = wordOfBytes hi lo := by
  have hnext := toNat_add_one hpc
  have hlen : s.pc.toNat + [hi, lo].length ≤ 4096 := by simp only [List.length_cons, List.length_nil]; omega
  simp [State.fetchWord, State.readByte_writeBytes _ _ _ _ hlen, hnext]

/-- Settles O24: the two bytes written at `pc` are those the fetch reads, and no other part of the state is written. -/
theorem placedWordIsFetched : Obligations.PlacedWordIsFetched := by
  intro s w hpc hw
  rw [withFetchWord_eq_writeBytes hw]
  refine ⟨?_, State.writeBytes_pc _ _ _, onlyChanges_writeBytes ?_ fun a hlo hhi => ?_⟩
  · rw [fetch_of_le (by simpa using hpc), fetchWord_writeBytes_pc hpc, wordOfBytes_extractLsb']
  · simp only [List.length_cons, List.length_nil]
    omega
  · simp only [List.length_cons, List.length_nil] at hhi
    have hnext := toNat_add_one hpc
    have ha : a.toNat = s.pc.toNat ∨ a.toNat = (s.pc + 1#12).toNat := by omega
    exact ha.imp (fun e => congrArg Part.byte (BitVec.eq_of_toNat_eq e))
      (fun e => congrArg Part.byte (BitVec.eq_of_toNat_eq e))

end Sys2Proof.Machine
end

section
/-! The three checked transfers (spec/20_memory.md R69, spec/42_index_memory.md R193 to R196): when they fault, and what the two
that store leave in memory. -/

namespace Sys2Proof.Machine

variable {s t : State} {x : Nibble}

/-! ### The check -/

/-- A word of format X as a number: the digit, the register and the low byte (R91). -/
theorem wordXKk_eq_ofNat (h x : Nibble) (kk : Byte) :
    wordXKk h x kk = BitVec.ofNat 16 (4096 * h.toNat + kk.toNat + 0x100 * x.toNat) := by
  apply BitVec.eq_of_toNat_eq
  have := h.isLt
  have := x.isLt
  have := kk.isLt
  rw [wordXKk_toNat, BitVec.toNat_ofNat]
  omega

/-- A checked transfer answers a next state exactly when its last address is inside memory and the transfer answers it. -/
theorem checkedThroughI_next_iff {op : Word} {k : Nat} {run : State → Host.Outcome State Fault Refusal} :
    checkedThroughI op k s run = .next t ↔ s.i.toNat + k ≤ 4095 ∧ run s = .next t := by
  rcases Nat.lt_or_ge 4095 (s.i.toNat + k) with h | h
  · simp [checkedThroughI_of_gt h, h]
  · simp [checkedThroughI_of_le h, h]

/-- R69, R253: a checked transfer that ends as every sequential instruction does raises `MemoryFault` exactly when its last
address exceeds 4095. -/
theorem checkedThroughI_advance_memoryFault_iff {op : Word} {k : Nat} {write : State → State} :
    (∃ a w, checkedThroughI op k s (fun s => advance op (write s)) = .fault (.memoryFault a w)) ↔
      4095 < s.i.toNat + k := by
  rcases Nat.lt_or_ge 4095 (s.i.toNat + k) with h | h
  · simp [checkedThroughI_of_gt h, h]
  · simp [checkedThroughI_of_le h, h, advance_fault_iff]

/-- Settles O46: the three transfers are checked through `I` and then sequential, and the word recorded is their own. -/
theorem transfersPastTheTopFault : Obligations.TransfersPastTheTopFault := by
  intro s x
  simp only [exec, execLdBVx, execLdMemIVx, execLdVxMemI, encode, wordXKk_eq_ofNat]
  exact ⟨checkedThroughI_advance_memoryFault_iff, checkedThroughI_of_gt,
    checkedThroughI_advance_memoryFault_iff, checkedThroughI_of_gt,
    checkedThroughI_advance_memoryFault_iff, checkedThroughI_of_gt⟩

/-! ### The two stores -/

theorem exec_ldBVx_next_iff : exec (.ldBVx x) s = .next t ↔ s.i.toNat + 2 ≤ 4095 ∧ s.pc.toNat + 2 ≤ 0xFFF ∧
    t = (s.writeBytes s.i.toNat (bcdDigits (s.getV x))).setPc (BitVec.ofNat 12 (s.pc.toNat + 2)) := by
  rw [exec, execLdBVx, checkedThroughI_next_iff, advance_next_iff, State.writeBytes_pc]

theorem exec_ldMemIVx_next_iff : exec (.ldMemIVx x) s = .next t ↔ s.i.toNat + x.toNat ≤ 4095 ∧ s.pc.toNat + 2 ≤ 0xFFF ∧
    t = (s.writeBytes s.i.toNat (regsUpTo s x)).setPc (BitVec.ofNat 12 (s.pc.toNat + 2)) := by
  rw [exec, execLdMemIVx, checkedThroughI_next_iff, advance_next_iff, State.writeBytes_pc]

@[simp] theorem length_bcdDigits (v : Byte) : (bcdDigits v).length = 3 := rfl

@[simp] theorem length_regsUpTo (s : State) (x : Nibble) : (regsUpTo s x).length = x.toNat + 1 := by simp [regsUpTo]

/-- Settles O57: every other instruction leaves memory alone, and a store changes no byte outside those it writes. -/
theorem memoryWriters : Obligations.MemoryWriters := by
  intro i s t a h hdiff
  obtain ⟨pc, s', rfl, hw⟩ := exec_next_writes h
  cases hw with
  | bcd x base bs =>
    obtain ⟨hi, -, ht⟩ := exec_ldBVx_next_iff.1 h
    rw [ht, State.readByte_setPc] at hdiff
    obtain ⟨hlo, hhi⟩ := address_of_readByte_writeBytes_ne (by rw [length_bcdDigits]; omega) hdiff
    rw [length_bcdDigits] at hhi
    exact .inl ⟨x, rfl, hlo, by omega⟩
  | store x base bs =>
    obtain ⟨hi, -, ht⟩ := exec_ldMemIVx_next_iff.1 h
    rw [ht, State.readByte_setPc] at hdiff
    obtain ⟨hlo, hhi⟩ := address_of_readByte_writeBytes_ne (by rw [length_regsUpTo]; omega) hdiff
    rw [length_regsUpTo] at hhi
    exact .inr ⟨x, rfl, hlo, by omega⟩
  | _ => exact absurd rfl hdiff

/-! ### What the next fetch reads -/

/-- R194: the bytes after `LD [I], Vx`. -/
theorem readByte_writeBytes_regsUpTo {a : Nat} (hi : s.i.toNat + x.toNat ≤ 4095) (ha : a ≤ 4095) :
    ((s.writeBytes s.i.toNat (regsUpTo s x)).readByte (BitVec.ofNat 12 a)).toNat = byteAfterRegs s x a := by
  rw [State.readByte_writeBytes _ _ _ _ (by rw [length_regsUpTo]; omega), byteAfterRegs]
  simp only [toNat_pc_of_le ha, length_regsUpTo]
  by_cases h : s.i.toNat ≤ a ∧ a ≤ s.i.toNat + x.toNat
  · rw [if_pos h, dif_pos (by omega)]
    simp [regsUpTo]
  · rw [if_neg h, dif_neg (by omega)]

/-- R193: the bytes after `LD B, Vx`. -/
theorem readByte_writeBytes_bcdDigits {a : Nat} (hi : s.i.toNat + 2 ≤ 4095) (ha : a ≤ 4095) :
    ((s.writeBytes s.i.toNat (bcdDigits (s.getV x))).readByte (BitVec.ofNat 12 a)).toNat = byteAfterDigits s x a := by
  have hv := (s.getV x).isLt
  rw [State.readByte_writeBytes _ _ _ _ (by rw [length_bcdDigits]; omega), byteAfterDigits]
  simp only [toNat_pc_of_le ha, length_bcdDigits]
  by_cases h0 : a = s.i.toNat
  · simp [h0, bcdDigits]; omega
  · by_cases h1 : a = s.i.toNat + 1
    · simp [h1, bcdDigits]; omega
    · by_cases h2 : a = s.i.toNat + 2
      · simp [h2, bcdDigits]; omega
      · rw [dif_neg (by omega), if_neg h0, if_neg h1, if_neg h2]

/-- The fetch two bytes past `a`, where memory holds the bytes that `byte` says. -/
theorem fetch_setPc_of_bytes {a : Nat} {byte : Nat → Nat} (ha : a ≤ 0xFFC)
    (hbyte : ∀ b ≤ 4095, (s.readByte (BitVec.ofNat 12 b)).toNat = byte b) :
    ∃ op, (s.setPc (BitVec.ofNat 12 (a + 2))).fetch = .ok op ∧ op.toNat = 256 * byte (a + 2) + byte (a + 3) := by
  have hpc : (BitVec.ofNat 12 (a + 2)).toNat = a + 2 := toNat_pc_of_le (by omega)
  refine ⟨_, fetch_of_le (by rw [State.setPc_pc, hpc]; omega), ?_⟩
  rw [fetchWord_toNat, State.setPc_pc, State.readByte_setPc, State.readByte_setPc, hpc, hbyte _ (by omega),
    hbyte _ (by omega)]

/-- Settles O25: each store leaves the bytes its rule says, and the fetch after it reads two of them. -/
theorem storeIsSeenByNextFetch : Obligations.StoreIsSeenByNextFetch := by
  refine fun s t x hpc => ⟨fun h => ?_, fun h => ?_⟩
  · obtain ⟨hi, -, rfl⟩ := exec_ldMemIVx_next_iff.1 h
    exact fetch_setPc_of_bytes hpc fun b hb => readByte_writeBytes_regsUpTo hi hb
  · obtain ⟨hi, -, rfl⟩ := exec_ldBVx_next_iff.1 h
    exact fetch_setPc_of_bytes hpc fun b hb => readByte_writeBytes_bcdDigits hi hb

end Sys2Proof.Machine
end

section
/-! What reads no memory: every instruction but the three transfers and `DRW` (spec/20_memory.md R60, spec/40_flow.md R139). -/

namespace Sys2Proof.Machine

variable {op : Word} {s : State} (a : Addr) (b : Byte)

/-- The end of an instruction looks at `pc` alone. -/
theorem jump_writeByte {u : State} {new : Nat} (hu : u = s.writeByte a b) :
    jump op new u = mapNext (fun t => t.writeByte a b) (jump op new s) := by
  subst hu
  unfold jump
  split <;> rfl

theorem execRet_writeByte : execRet (s.writeByte a b) = mapNext (fun t => t.writeByte a b) (execRet s) := by
  rcases s.sp_eq_zero_or_succ with h | ⟨k, h⟩
  · rw [execRet_of_zero h, execRet_of_zero (s := s.writeByte a b) h]
    rfl
  · rw [execRet_of_succ h, execRet_of_succ (s := s.writeByte a b) h]
    exact jump_writeByte a b rfl

theorem execCallNnn_writeByte (nnn : Addr) :
    execCallNnn nnn (s.writeByte a b) = mapNext (fun t => t.writeByte a b) (execCallNnn nnn s) := by
  rcases s.sp_lt_or_full with h | h
  · rcases Nat.lt_or_ge 0xFFF (s.pc.toNat + 2) with hpc | hpc
    · rw [execCallNnn_of_gt h hpc, execCallNnn_of_gt (s := s.writeByte a b) h hpc]
      rfl
    · rw [execCallNnn_of_lt h hpc, execCallNnn_of_lt (s := s.writeByte a b) h hpc]
      exact jump_writeByte a b rfl
  · rw [execCallNnn_of_full h, execCallNnn_of_full (s := s.writeByte a b) h]
    rfl

theorem skipIfKey_writeByte (x : Nibble) (want : Bool) :
    skipIfKey op x want (s.writeByte a b) = mapNext (fun t => t.writeByte a b) (skipIfKey op x want s) := by
  unfold skipIfKey
  rw [State.getV_writeByte, State.writeByte_env]
  split
  · exact jump_writeByte a b rfl
  · rfl

theorem execLdVxK_writeByte (x : Nibble) :
    execLdVxK x (s.writeByte a b) = mapNext (fun t => t.writeByte a b) (execLdVxK x s) := by
  unfold execLdVxK
  rw [State.writeByte_env]
  split <;> exact jump_writeByte a b rfl

/-- Settles O58: the instructions with a check or a choice by their lemmas above; all others compute their writes and their new
`pc` without memory. -/
theorem memoryIsUnreadByOthers : Obligations.MemoryIsUnreadByOthers := by
  intro i s a b hbcd hstore hload hdraw
  cases i
  case ldBVx x => exact absurd rfl (hbcd x)
  case ldMemIVx x => exact absurd rfl (hstore x)
  case ldVxMemI x => exact absurd rfl (hload x)
  case drwVxVyN x y n => exact absurd rfl (hdraw x y n)
  case ret => exact execRet_writeByte a b
  case callNnn nnn => exact execCallNnn_writeByte a b nnn
  case skpVx x => exact skipIfKey_writeByte a b x true
  case sknpVx x => exact skipIfKey_writeByte a b x false
  case ldVxK x => exact execLdVxK_writeByte a b x
  all_goals exact jump_writeByte a b rfl

end Sys2Proof.Machine
end

section
/-! Decoding and encoding are inverse to each other on the well-formed instructions (spec/30_encoding.md R91, R92, R96,
R100, R101). -/

namespace Sys2Proof

/-! ### The fields of a word laid out -/

section

variable (h x y n : Nibble) (kk : Byte) (nnn : Addr)

@[simp] theorem topDigit_wordNnn : (wordNnn h nnn).extractLsb' 12 4 = h := by
  apply BitVec.eq_of_toNat_eq
  rw [topDigit_toNat, wordNnn_toNat]
  omega

@[simp] theorem fieldNnn_wordNnn : fieldNnn (wordNnn h nnn) = nnn := by
  apply BitVec.eq_of_toNat_eq
  rw [fieldNnn_toNat, wordNnn_toNat]
  omega

@[simp] theorem topDigit_wordXKk : (wordXKk h x kk).extractLsb' 12 4 = h := by
  apply BitVec.eq_of_toNat_eq
  rw [topDigit_toNat, wordXKk_toNat]
  omega

@[simp] theorem fieldX_wordXKk : fieldX (wordXKk h x kk) = x := by
  apply BitVec.eq_of_toNat_eq
  rw [fieldX_toNat, wordXKk_toNat]
  omega

@[simp] theorem fieldKk_wordXKk : fieldKk (wordXKk h x kk) = kk := by
  apply BitVec.eq_of_toNat_eq
  rw [fieldKk_toNat, wordXKk_toNat]
  omega

@[simp] theorem topDigit_wordXYN : (wordXYN h x y n).extractLsb' 12 4 = h := by
  apply BitVec.eq_of_toNat_eq
  rw [topDigit_toNat, wordXYN_toNat]
  omega

@[simp] theorem fieldX_wordXYN : fieldX (wordXYN h x y n) = x := by
  apply BitVec.eq_of_toNat_eq
  rw [fieldX_toNat, wordXYN_toNat]
  omega

@[simp] theorem fieldY_wordXYN : fieldY (wordXYN h x y n) = y := by
  apply BitVec.eq_of_toNat_eq
  rw [fieldY_toNat, wordXYN_toNat]
  omega

@[simp] theorem fieldN_wordXYN : fieldN (wordXYN h x y n) = n := by
  apply BitVec.eq_of_toNat_eq
  rw [fieldN_toNat, wordXYN_toNat]
  omega

end

/-! ### The round trips -/

/-- R100: the two operands that the pattern of `SYS` excludes. -/
theorem wellFormed_sysNnn_iff {nnn : Addr} :
    (Instr.sysNnn nnn).wellFormed = true ↔ nnn ≠ 0x0E0#12 ∧ nnn ≠ 0x0EE#12 := by
  simp [Instr.wellFormed]

theorem wordNnn_ne (h : Nibble) {a b : Addr} (hab : a ≠ b) : wordNnn h a ≠ wordNnn h b :=
  fun e => hab (by simpa using congrArg fieldNnn e)

/-- R96: a word of the digit 0 that is neither `00E0` nor `00EE` is a `SYS`. -/
theorem decode_wordNnn_zero {nnn : Addr} (hcls : nnn ≠ 0x0E0#12) (hret : nnn ≠ 0x0EE#12) :
    decode (wordNnn 0x0#4 nnn) = some (.sysNnn nnn) := by
  have hcls' : wordNnn 0x0#4 nnn ≠ 0x00E0#16 := wordNnn_ne 0x0#4 hcls
  have hret' : wordNnn 0x0#4 nnn ≠ 0x00EE#16 := wordNnn_ne 0x0#4 hret
  simp [decode, hcls', hret']

/-- R101: decoding the encoding of a well-formed instruction gives it back. The rows of the digits 8, E and F are those of a
second dispatch; all others but `SYS` are told by their first digit. -/
theorem decode_encode {i : Instr} (hi : i.wellFormed = true) : decode (encode i) = some i := by
  cases i
  case cls | ret => rfl
  case sysNnn nnn =>
    obtain ⟨hcls, hret⟩ := wellFormed_sysNnn_iff.1 hi
    exact decode_wordNnn_zero hcls hret
  case ldVxVy | orVxVy | andVxVy | xorVxVy | addVxVy | subVxVy | shrVxVy | subnVxVy | shlVxVy =>
    simp [encode, decode, decode8]
  case skpVx | sknpVx => simp [encode, decode, decodeE]
  case ldVxDt | ldVxK | ldDtVx | ldStVx | addIVx | ldFVx | ldBVx | ldMemIVx | ldVxMemI =>
    simp [encode, decode, decodeF]
  all_goals simp [encode, decode]

/-- The byte decoder takes the first two bytes where their word decodes. -/
theorem decodeBytes_of_decode {hi lo : Byte} {i : Instr} (rest : List Byte) (hdec : decode (wordOfBytes hi lo) = some i) :
    decodeBytes (hi :: lo :: rest) = .ok (i, rest) := by
  simp [decodeBytes, hdec]

/-- Settles O1: the two bytes of an instruction form its word again, which decodes to it. -/
theorem decodeEncodeRoundTrip : Obligations.DecodeEncodeRoundTrip := by
  intro i rest hi
  have hdec : decode (encode i) = some i := decode_encode hi
  refine ⟨hdec, decodeBytes_of_decode rest ?_⟩
  rw [Machine.wordOfBytes_extractLsb', hdec]

/-- R97, R100: what a word decodes to is an instruction value. A `SYS` decoded has its operand in the word, and the words of the
two operands excluded decode to `CLS` and `RET`. -/
theorem wellFormed_of_decode {op : Word} {i : Instr} (hdec : decode op = some i) : i.wellFormed = true := by
  cases i
  case sysNnn nnn =>
    obtain rfl : wordNnn 0x0#4 nnn = op := encode_of_decode hdec
    rw [wellFormed_sysNnn_iff]
    constructor <;> rintro rfl <;> exact absurd hdec (by decide)
  all_goals rfl

/-- Settles O2: both halves are facts about what a word decodes to. -/
theorem encodeDecodeRoundTrip : Obligations.EncodeDecodeRoundTrip :=
  fun _ _ hdec => ⟨encode_of_decode hdec, wellFormed_of_decode hdec⟩

/-- Settles O4: the decoder run on the sixteen words. -/
theorem sampleWordsDecode : Obligations.SampleWordsDecode := by
  unfold Obligations.SampleWordsDecode
  decide

end Sys2Proof
end

section
/-! The illegal words (spec/30_encoding.md R97, R98, R102): those that each part of the decoder rejects, and then those of the
first digits. -/

namespace Sys2Proof

variable {op : Word}

theorem decode8_eq_none_iff : decode8 op = none ↔ op.toNat % 16 ∈ [0x8, 0x9, 0xA, 0xB, 0xC, 0xD, 0xF] := by
  have hlt : op.toNat % 16 < 16 := Nat.mod_lt _ (by decide)
  rw [decode8, fieldN_toNat]
  generalize op.toNat % 16 = n at hlt ⊢
  interval_cases n <;> simp

theorem decodeE_eq_none_iff : decodeE op = none ↔ op.toNat % 256 ∉ [0x9E, 0xA1] := by
  rw [decodeE, fieldKk_toNat]
  split <;> simp_all

theorem decodeF_eq_none_iff :
    decodeF op = none ↔ op.toNat % 256 ∉ [0x07, 0x0A, 0x15, 0x18, 0x1E, 0x29, 0x33, 0x55, 0x65] := by
  rw [decodeF, fieldKk_toNat]
  split <;> simp_all

theorem fieldN_eq_zero_iff : fieldN op = 0#4 ↔ op.toNat % 16 = 0 := by
  rw [← fieldN_toNat, ← BitVec.toNat_inj, BitVec.toNat_zero]

/-- Settles O3: one case per first digit. Five of them reject words, by their other digits; the rest reject none. -/
theorem illegalWordsByDigits : Obligations.IllegalWordsByDigits := by
  intro op
  have hdigit : op.toNat / 4096 < 16 := Nat.div_lt_of_lt_mul op.isLt
  rw [decode, topDigit_toNat]
  split
  case h_6 hh | h_10 hh => simp [hh, fieldN_eq_zero_iff]
  case h_9 hh => simp [hh, decode8_eq_none_iff]
  case h_15 hh => simp [hh, decodeE_eq_none_iff]
  case h_16 hh => simp [hh, decodeF_eq_none_iff]
  case h_17 => grind
  case h_1 hh => split_ifs <;> simp [hh]
  all_goals simp [*]

end Sys2Proof
end

section
/-! The listing of a ROM assembles back to it (spec/30_encoding.md R117 to R121). -/

namespace Sys2Proof

theorem extractLsb'_high_wordOfBytes (hi lo : Byte) : (wordOfBytes hi lo).extractLsb' 8 8 = hi := by
  apply BitVec.eq_of_toNat_eq
  rw [BitVec.extractLsb'_toNat, wordOfBytes_toNat, Nat.shiftRight_eq_div_pow]
  omega

theorem extractLsb'_low_wordOfBytes (hi lo : Byte) : (wordOfBytes hi lo).extractLsb' 0 8 = lo := by
  apply BitVec.eq_of_toNat_eq
  rw [BitVec.extractLsb'_toNat, wordOfBytes_toNat, Nat.shiftRight_zero]
  omega

/-- R120: the statement listed for a word emits its two bytes, whether the word decodes or not. -/
theorem bytes_listWord (w : Word) : (listWord w).bytes = .ok [w.extractLsb' 8 8, w.extractLsb' 0 8] := by
  rcases hdec : decode w with _ | i
  · have hlt : w.toNat < 65536 := w.isLt
    simp [listWord, hdec, Statement.bytes, hlt]
  · have hasm := assembleInstr_spelling i (wellFormed_of_decode hdec)
    simp [listWord, hdec, Statement.bytes, hasm, encodeBytes, encode_of_decode hdec]

section

variable {s : Statement} {bs : List Byte} (p : List Statement)

theorem statementErrors_cons_of_ok (h : s.bytes = .ok bs) : statementErrors (s :: p) = statementErrors p := by
  rw [statementErrors, h]

theorem imageBytes_cons_of_ok (h : s.bytes = .ok bs) : imageBytes (s :: p) = bs ++ imageBytes p := by
  rw [imageBytes, h]

end

/-- R121: the statements of a listing assemble, to the bytes listed. -/
theorem listing_image (rom : List Byte) : statementErrors (listing rom) = [] ∧ imageBytes (listing rom) = rom := by
  induction rom using listing.induct with
  | case1 hi lo rest ih =>
    obtain ⟨herr, himage⟩ := ih
    have hword := bytes_listWord (wordOfBytes hi lo)
    rw [extractLsb'_high_wordOfBytes, extractLsb'_low_wordOfBytes] at hword
    rw [listing, statementErrors_cons_of_ok _ hword, imageBytes_cons_of_ok _ hword, himage]
    exact ⟨herr, rfl⟩
  | case2 b =>
    have hbyte : (Statement.byte b.toNat).bytes = .ok [b] := by simp [Statement.bytes, b.isLt]
    rw [listing, statementErrors_cons_of_ok _ hbyte, imageBytes_cons_of_ok _ hbyte]
    exact ⟨rfl, rfl⟩
  | case3 => exact ⟨rfl, rfl⟩

/-- R121: a ROM that fits memory is what its listing assembles to. -/
theorem assemble_listing {rom : List Byte} (h : rom.length ≤ Config.romMax) : assemble (listing rom) = .ok rom := by
  obtain ⟨herr, himage⟩ := listing_image rom
  have hsize : imageSize (listing rom) = rom.length := by rw [← length_imageBytes herr, himage]
  exact assemble_ok_iff.2 ⟨herr, hsize.trans_le h, himage.symm⟩

/-- R118: the assembler produces no ROM longer than memory takes. -/
theorem length_le_of_assemble {p : List Statement} {rom : List Byte} (h : assemble p = .ok rom) :
    rom.length ≤ Config.romMax := by
  obtain ⟨herr, hsize, rfl⟩ := assemble_ok_iff.1 h
  exact (length_imageBytes herr).trans_le hsize

/-- Settles O5: a ROM the assembler produces is short enough, so the law for any ROM holds of it. -/
theorem listingAssemblesBack : Obligations.ListingAssemblesBack :=
  ⟨fun _ h => assemble_listing h, fun _ _ h => ⟨length_le_of_assemble h, assemble_listing (length_le_of_assemble h)⟩⟩

end Sys2Proof
end

section
/-! How an instruction runs as its rule says: its word as a number, and the end of an instruction that reaches an address
(spec/00_scope.md R13, spec/30_encoding.md R100, R101). -/

namespace Sys2Proof.Machine

/-- The word of an instruction, from its value as a number. -/
theorem encode_eq_ofNat {i : Instr} {word : Nat} (hword : (encode i).toNat = word) : encode i = BitVec.ofNat 16 word :=
  BitVec.eq_of_toNat_eq (by simp [← hword])

/-- A number that is the word of a well-formed instruction decodes to it. -/
theorem decode_ofNat {i : Instr} {word : Nat} (hi : i.wellFormed = true) (hword : (encode i).toNat = word) :
    decode (BitVec.ofNat 16 word) = some i := by
  rw [← encode_eq_ofNat hword, decode_encode hi]

/-- What `OnlyChanges` compares leaves `pc` out. -/
@[simp] theorem onlyChanges_setPc_iff {parts : Set Part} {s t : State} {a : Addr} :
    OnlyChanges parts s (t.setPc a) ↔ OnlyChanges parts s t := Iff.rfl

/-- An instruction that writes `u` and then jumps runs towards the target of the jump. -/
theorem runsAs_of_jump {i : Instr} {op : Word} {word new : Nat} {s u : State} {P : State → Prop}
    (hi : i.wellFormed = true) (hword : (encode i).toNat = word) (hexec : exec i s = jump op new u)
    (hP : P (u.setPc (BitVec.ofNat 12 new))) : RunsAs i word s new P :=
  ⟨decode_ofNat hi hword, fun hnew => ⟨_, hexec.trans (jump_of_le hnew), toNat_pc_of_le hnew, hP⟩⟩

end Sys2Proof.Machine
end

section
/-! The control flow instructions: what each sets `pc` to, and what it leaves (spec/40_flow.md R130 to R139). -/

namespace Sys2Proof.Machine

variable {s t : State} {nnn : Addr}

/-! ### The stack -/

/-- The word of a `CALL` as a number (R100). -/
theorem encode_callNnn_toNat (nnn : Addr) : (encode (.callNnn nnn)).toNat = 0x2000 + nnn.toNat := wordNnn_toNat 0x2#4 nnn

/-- A push writes the entry at `SP`, and `SP`. -/
theorem onlyChanges_setStack_setSp (s : State) (k : Fin 16) (r : Addr) (n : Fin 17) :
    OnlyChanges {Part.sp, Part.stack k} s ((s.setStack k r).setSp n) := by
  have hstack (j : Fin 16) (hj : j ≠ k) : (s.stack.set k.val r k.isLt)[j] = s.stack[j] :=
    Vector.getElem_set_ne _ _ (Fin.val_ne_of_ne hj.symm)
  simpa [OnlyChanges] using hstack

/-- Settles O31: the case with room by `execCallNnn_of_lt`, the full stack by `execCallNnn_of_full`. -/
theorem callPushesAndJumps : Obligations.CallPushesAndJumps := by
  intro s nnn
  refine ⟨decode_ofNat rfl (encode_callNnn_toNat nnn), fun hroom hpc => ?_, fun hfull => ?_⟩
  · have hnnn : nnn.toNat ≤ 0xFFF := by omega
    refine ⟨_, (execCallNnn_of_lt hroom hpc).trans (jump_of_le hnnn), ?_, rfl, ?_,
      onlyChanges_setPc_iff.2 (onlyChanges_setStack_setSp s _ _ _)⟩
    · simp
    · simp [toNat_pc_of_le hpc]
  · rw [← encode_eq_ofNat (encode_callNnn_toNat nnn)]
    exact execCallNnn_of_full hfull

/-- Settles O32: one equation of `RET` for each case of `SP`; a stack entry is an address, so the jump to it succeeds. -/
theorem retPopsAndJumps : Obligations.RetPopsAndJumps := by
  intro s
  refine ⟨rfl, fun k hk => ?_, execRet_of_zero⟩
  have hentry : s.stack[k].toNat ≤ 0xFFF := by omega
  refine ⟨_, (execRet_of_succ hk).trans (jump_of_le hentry), rfl, by simp, ?_⟩
  simp [OnlyChanges]

/-- A `CALL` that answers a next state found room in the stack and an address to return to. -/
theorem room_of_exec_callNnn_next (h : exec (.callNnn nnn) s = .next t) : s.sp.val < 16 ∧ s.pc.toNat + 2 ≤ 0xFFF := by
  change execCallNnn nnn s = .next t at h
  rcases s.sp_lt_or_full with hroom | hfull
  · refine ⟨hroom, ?_⟩
    by_contra hpc
    rw [execCallNnn_of_gt hroom (Nat.lt_of_not_le hpc)] at h
    cases h
  · rw [execCallNnn_of_full hfull] at h
    cases h

/-- Settles O33: the entry that `RET` pops is the one that `CALL` pushed. -/
theorem retUndoesCall : Obligations.RetUndoesCall := by
  intro s t nnn a h
  obtain ⟨hroom, hpc⟩ := room_of_exec_callNnn_next h
  obtain ⟨-, hcall, -⟩ := callPushesAndJumps s nnn
  obtain ⟨t', ht', -, hsp, hentry, -⟩ := hcall hroom hpc
  obtain rfl : t = t' := by simpa [h] using ht'
  obtain ⟨-, hret, -⟩ := retPopsAndJumps (t.setPc a)
  obtain ⟨u, hu, husp, hupc, -⟩ := hret ⟨s.sp.val, hroom⟩ hsp
  exact ⟨u, hu, hupc ▸ hentry, Fin.ext husp⟩

/-! ### The skips -/

/-- A skip that tests `c` runs towards `a + 4` or `a + 2` and changes nothing else (R139). -/
theorem runsAs_of_skipIf {i : Instr} {op : Word} {word : Nat} {c : Bool} (hi : i.wellFormed = true)
    (hword : (encode i).toNat = word) (hexec : exec i s = skipIf op c s) :
    RunsAs i word s (s.pc.toNat + if c then 4 else 2) (OnlyChanges ∅ s) :=
  runsAs_of_jump hi hword hexec (OnlyChanges.refl ∅ s)

/-- The test of a `SE`, on the values as numbers. -/
theorem ite_beq_eq_ite_toNat (a b : Byte) : (if a == b then 4 else 2) = if a.toNat = b.toNat then 4 else 2 := by
  simp [BitVec.toNat_inj]

/-- The test of a `SNE`, on the values as numbers. -/
theorem ite_bne_eq_ite_toNat (a b : Byte) : (if a != b then 4 else 2) = if a.toNat = b.toNat then 2 else 4 := by
  simp [BitVec.toNat_inj]

/-- Settles O34: each is a skip, on the equality of two bytes or its negation. -/
theorem skipsTestRegisters : Obligations.SkipsTestRegisters := by
  intro s x y kk
  simp only [← ite_beq_eq_ite_toNat, ← ite_bne_eq_ite_toNat]
  exact ⟨runsAs_of_skipIf rfl (wordXKk_toNat 0x3#4 x kk) rfl, runsAs_of_skipIf rfl (wordXKk_toNat 0x4#4 x kk) rfl,
    runsAs_of_skipIf rfl (wordXYN_toNat 0x5#4 x y 0x0#4) rfl, runsAs_of_skipIf rfl (wordXYN_toNat 0x9#4 x y 0x0#4) rfl⟩

/-! ### `SYS` and the jumps -/

/-- Settles O28: with the two operands of its own rows excluded, `SYS` is well formed; it jumps to `pc + 2`. -/
theorem sysOnlyAdvances : Obligations.SysOnlyAdvances := by
  intro s nnn hcls hret
  have hword : (encode (.sysNnn nnn)).toNat = nnn.toNat := (wordNnn_toNat 0x0#4 nnn).trans (Nat.zero_add _)
  exact runsAs_of_jump (wellFormed_sysNnn_iff.2 ⟨hcls, hret⟩) hword rfl (OnlyChanges.refl ∅ s)

/-- Settles O29: the target is an address, so the jump cannot fault. -/
theorem jumpSetsPc : Obligations.JumpSetsPc := by
  intro s nnn
  refine ⟨runsAs_of_jump rfl (wordNnn_toNat 0x1#4 nnn) rfl (OnlyChanges.refl ∅ s), fun f hf => ?_⟩
  obtain ⟨hgt, -⟩ := jump_fault_iff.1 hf
  omega

/-- Settles O30: a jump to the sum. -/
theorem jumpV0AddsRegisterZero : Obligations.JumpV0AddsRegisterZero := fun s nnn =>
  runsAs_of_jump rfl (wordNnn_toNat 0xB#4 nnn) rfl (OnlyChanges.refl ∅ s)

end Sys2Proof.Machine
end

section
/-! The register and arithmetic instructions: what each leaves in `V[x]` and in `VF`, and that it changes nothing else
(spec/41_alu.md R160 to R173, spec/42_index_memory.md R190). -/

namespace Sys2Proof.Machine

variable {s : State} {x : Nibble}

/-! ### Frames and words -/

/-- Writing one register changes that register alone. -/
theorem onlyChanges_setV (s : State) (x : Nibble) (b : Byte) : OnlyChanges {Part.reg x} s (s.setV x b) := by
  simp +contextual [OnlyChanges, State.getV_setV_ne]

/-- Writing two registers, or one of them twice, changes those alone. -/
theorem onlyChanges_setV_setV (s : State) (x y : Nibble) (b c : Byte) :
    OnlyChanges {Part.reg x, Part.reg y} s ((s.setV x b).setV y c) := by
  simp +contextual [OnlyChanges, State.getV_setV_ne]

/-- Taking a random byte and writing one register changes the random source and that register alone. -/
theorem onlyChanges_takeRandom_setV (s : State) (x : Nibble) (b : Byte) :
    OnlyChanges {Part.reg x, Part.random} s (s.takeRandom.setV x b) := by
  simp +contextual [OnlyChanges, State.getV_setV_ne]

/-- A word of format XY as a number, the fixed digits first (R91). -/
theorem wordXYN_toNat_fixed_first (h x y n : Nibble) :
    (wordXYN h x y n).toNat = 4096 * h.toNat + n.toNat + 256 * x.toNat + 16 * y.toNat := by
  rw [wordXYN_toNat]
  omega

/-! ### No flag -/

/-- Settles O35: the register or `I` is written with the value named, and nothing else is written. -/
theorem loadsSetRegister : Obligations.LoadsSetRegister := by
  intro s x y kk nnn
  have hnnn : (BitVec.ofNat 16 nnn.toNat).toNat = nnn.toNat := by simp; omega
  refine ⟨runsAs_of_jump rfl (wordXKk_toNat 0x6#4 x kk) rfl ⟨State.getV_setV_self .., onlyChanges_setV ..⟩,
    runsAs_of_jump rfl (wordXYN_toNat_fixed_first 0x8#4 x y 0#4) rfl ⟨State.getV_setV_self .., onlyChanges_setV ..⟩,
    runsAs_of_jump rfl (wordNnn_toNat 0xA#4 nnn) rfl ⟨hnnn, ?_⟩⟩
  simp [OnlyChanges]

/-- Settles O36: the addition of bytes is modulo 256, and its one write is to `V[x]`. -/
theorem addImmediateWrapsWithoutFlag : Obligations.AddImmediateWrapsWithoutFlag := fun s x kk =>
  runsAs_of_jump rfl (wordXKk_toNat 0x7#4 x kk) rfl ⟨by simp, onlyChanges_setV ..⟩

/-- Settles O37: the operations on bytes are bitwise, and the one write of each is to `V[x]`. -/
theorem logicIsBitwiseWithoutFlag : Obligations.LogicIsBitwiseWithoutFlag := fun s x y =>
  ⟨runsAs_of_jump rfl (wordXYN_toNat_fixed_first 0x8#4 x y 1#4) rfl ⟨fun k => by simp, onlyChanges_setV ..⟩,
    runsAs_of_jump rfl (wordXYN_toNat_fixed_first 0x8#4 x y 2#4) rfl ⟨fun k => by simp, onlyChanges_setV ..⟩,
    runsAs_of_jump rfl (wordXYN_toNat_fixed_first 0x8#4 x y 3#4) rfl ⟨fun k => by simp, onlyChanges_setV ..⟩⟩

/-- Settles O41: the byte taken is masked by `kk`, so it has no bit outside `kk`. -/
theorem randomByteIsMasked : Obligations.RandomByteIsMasked := by
  intro s x kk
  have hmask : s.nextRandom &&& kk &&& ~~~kk = 0#8 := by simp [BitVec.and_assoc]
  refine runsAs_of_jump rfl (wordXKk_toNat 0xC#4 x kk) rfl ⟨State.getV_setV_self .., ?_, rfl, List.drop_one.symm,
    onlyChanges_takeRandom_setV ..⟩
  rw [State.getV_setPc, State.getV_setV_self, hmask]

/-! ### The flag, written last -/

theorem flagByte_toNat (p : Prop) [Decidable p] : (flagByte (decide p)).toNat = if p then 1 else 0 := by
  by_cases hp : p <;> simp [flagByte, hp]

/-- The flag that is bit `k` of a byte. -/
theorem flagByte_getLsbD_toNat (a : Byte) (k : Nat) : (flagByte (a.getLsbD k)).toNat = a.toNat / 2 ^ k % 2 := by
  rw [BitVec.getLsbD, Nat.testBit_eq_decide_div_mod_eq, flagByte_toNat]
  split <;> omega

theorem carryFlag_toNat (a b : Byte) : (carryFlag a b).toNat = if 255 < a.toNat + b.toNat then 1 else 0 :=
  flagByte_toNat _

theorem noBorrowFlag_toNat (a b : Byte) : (noBorrowFlag a b).toNat = if b.toNat ≤ a.toNat then 1 else 0 :=
  flagByte_toNat _

theorem shrFlag_toNat (a : Byte) : (shrFlag a).toNat = a.toNat % 2 := by
  rw [shrFlag, flagByte_getLsbD_toNat, pow_zero, Nat.div_one]

theorem shlFlag_toNat (a : Byte) : (shlFlag a).toNat = a.toNat / 128 := by
  have := a.isLt
  rw [shlFlag, flagByte_getLsbD_toNat]
  omega

/-- The difference of two bytes, as a number (R168). -/
theorem toNat_byte_sub (a b : Byte) : (a - b).toNat = (a.toNat + 256 - b.toNat) % 256 := by
  rw [BitVec.toNat_sub]
  omega

/-- R166: an instruction that ends by writing a result and then the flag leaves the result in `V[x]` unless that is `VF`, and the
flag in `VF`. -/
theorem runsAs_of_writeResultAndFlag {i : Instr} {op : Word} {word result flag : Nat} {r f : Byte}
    (hi : i.wellFormed = true) (hword : (encode i).toNat = word) (hexec : exec i s = writeResultAndFlag op x r f s)
    (hr : r.toNat = result) (hf : f.toNat = flag) : RunsAs i word s (s.pc.toNat + 2) (fun t =>
      (x ≠ 0xF#4 → (t.getV x).toNat = result) ∧ (t.getV 0xF#4).toNat = flag ∧
      OnlyChanges {Part.reg x, Part.reg 0xF#4} s t) := by
  refine runsAs_of_jump hi hword hexec ⟨fun hx => ?_, ?_, onlyChanges_setV_setV ..⟩
  · rw [State.getV_setPc, State.getV_setV_ne _ _ _ _ hx, State.getV_setV_self, hr]
  · rw [State.getV_setPc, State.getV_setV_self, hf]

/-- Settles O38: the sum of bytes, and the carry. -/
theorem addSetsCarryLast : Obligations.AddSetsCarryLast := fun _ x y =>
  runsAs_of_writeResultAndFlag rfl (wordXYN_toNat_fixed_first 0x8#4 x y 4#4) rfl (BitVec.toNat_add ..) (carryFlag_toNat ..)

/-- Settles O39: the difference of bytes one way and the other, and no borrow. -/
theorem subtractionsSetNoBorrowLast : Obligations.SubtractionsSetNoBorrowLast := fun _ x y =>
  ⟨runsAs_of_writeResultAndFlag rfl (wordXYN_toNat_fixed_first 0x8#4 x y 5#4) rfl (toNat_byte_sub ..) (noBorrowFlag_toNat ..),
    runsAs_of_writeResultAndFlag rfl (wordXYN_toNat_fixed_first 0x8#4 x y 7#4) rfl (toNat_byte_sub ..) (noBorrowFlag_toNat ..)⟩

/-- Settles O40: a shift by one halves or doubles `V[x]`, and the bit shifted out is its lowest or its highest. -/
theorem shiftsAreInPlace : Obligations.ShiftsAreInPlace := by
  intro s x y
  have hhalf : (s.getV x >>> 1).toNat = (s.getV x).toNat / 2 := by rw [BitVec.toNat_ushiftRight, Nat.shiftRight_one]
  have hdouble : (s.getV x <<< 1).toNat = 2 * (s.getV x).toNat % 256 := by
    rw [BitVec.toNat_shiftLeft, Nat.shiftLeft_eq, pow_one, Nat.mul_comm]
  exact ⟨runsAs_of_writeResultAndFlag rfl (wordXYN_toNat_fixed_first 0x8#4 x y 6#4) rfl hhalf (shrFlag_toNat _),
    runsAs_of_writeResultAndFlag rfl (wordXYN_toNat_fixed_first 0x8#4 x y 0xE#4) rfl hdouble (shlFlag_toNat _)⟩

end Sys2Proof.Machine
end

section
/-! The address register and memory instructions: what each leaves in `I`, in memory and in the registers, and that it changes
nothing else (spec/42_index_memory.md R191 to R196). -/

namespace Sys2Proof.Machine

variable {s : State} {x : Nibble}

/-- A word of format XKK as a number, the fixed digits first (R91). -/
theorem wordXKk_toNat_fixed_first (h x : Nibble) (kk : Byte) :
    (wordXKk h x kk).toNat = 4096 * h.toNat + kk.toNat + 256 * x.toNat := by
  rw [wordXKk_toNat]
  omega

/-! ### `I` -/

/-- Writing `I` changes `I` alone. -/
theorem onlyChanges_setI (s : State) (w : Word) : OnlyChanges {Part.i} s (s.setI w) := by simp [OnlyChanges]

/-- R192: the glyph address, which 16 bits hold. -/
theorem glyphAddr_toNat (v : Byte) : (glyphAddr v).toNat = 5 * (v.toNat % 16) := by
  rw [glyphAddr, BitVec.toNat_ofNat]
  omega

/-- Settles O42: the one write of each is to `I`, of the sum modulo 65536 or of the glyph address. -/
theorem addressRegisterArithmetic : Obligations.AddressRegisterArithmetic := fun s x =>
  ⟨runsAs_of_jump rfl (wordXKk_toNat_fixed_first 0xF#4 x 0x1E#8) rfl ⟨BitVec.toNat_ofNat .., onlyChanges_setI s _⟩,
    runsAs_of_jump rfl (wordXKk_toNat_fixed_first 0xF#4 x 0x29#8) rfl ⟨glyphAddr_toNat _, onlyChanges_setI s _⟩⟩

/-! ### The transfers -/

/-- A sequential instruction that writes `u`, which leaves `pc`, runs towards `pc + 2` (R23). -/
theorem runsAs_of_advance {i : Instr} {op : Word} {word : Nat} {u : State} {P : State → Prop}
    (hi : i.wellFormed = true) (hword : (encode i).toNat = word) (hexec : exec i s = advance op u) (hpc : u.pc = s.pc)
    (hP : P (u.setPc (BitVec.ofNat 12 (s.pc.toNat + 2)))) : RunsAs i word s (s.pc.toNat + 2) P :=
  runsAs_of_jump hi hword (by rw [hexec, advance, hpc]) hP

theorem exec_ldBVx_of_le (h : s.i.toNat + 2 ≤ 4095) : exec (.ldBVx x) s =
    advance (encode (.ldBVx x)) (s.writeBytes s.i.toNat (bcdDigits (s.getV x))) := by
  rw [exec, execLdBVx, checkedThroughI_of_le h]

theorem exec_ldMemIVx_of_le (h : s.i.toNat + x.toNat ≤ 4095) : exec (.ldMemIVx x) s =
    advance (encode (.ldMemIVx x)) (s.writeBytes s.i.toNat (regsUpTo s x)) := by
  rw [exec, execLdMemIVx, checkedThroughI_of_le h]

theorem exec_ldVxMemI_of_le (h : s.i.toNat + x.toNat ≤ 4095) : exec (.ldVxMemI x) s =
    advance (encode (.ldVxMemI x)) (s.setRegs (loadedRegs s x)) := by
  rw [exec, execLdVxMemI, checkedThroughI_of_le h]

/-- An address from `base` up, by its offset. -/
theorem byte_eq_byte_ofNat_add_sub {base : Nat} {a : Addr} (h : base ≤ a.toNat) :
    Part.byte a = Part.byte (BitVec.ofNat 12 (base + (a.toNat - base))) := by
  rw [Nat.add_sub_of_le h, BitVec.ofNat_toNat, BitVec.setWidth_eq]

/-- Settles O43: the bytes after the store by `byteAfterDigits`, one case per digit. -/
theorem bcdStoresThreeDigits : Obligations.BcdStoresThreeDigits := by
  intro s x hi
  have hbyte (a : Nat) (ha : a ≤ 4095) := readByte_writeBytes_bcdDigits (s := s) (x := x) hi ha
  refine runsAs_of_advance rfl (wordXKk_toNat_fixed_first 0xF#4 x 0x33#8) (exec_ldBVx_of_le hi) (State.writeBytes_pc ..)
    ⟨?_, ?_, ?_, onlyChanges_writeBytes ?_ fun a hlo hhi => ?_⟩
  · exact (hbyte _ (by omega)).trans (by simp [byteAfterDigits])
  · exact (hbyte _ (by omega)).trans (by simp [byteAfterDigits])
  · exact (hbyte _ (by omega)).trans (by simp [byteAfterDigits])
  · rw [length_bcdDigits]
    omega
  · rw [length_bcdDigits] at hhi
    exact ⟨⟨a.toNat - s.i.toNat, by omega⟩, byte_eq_byte_ofNat_add_sub hlo⟩

/-- R194: the byte at `I + k` after `LD [I], Vx` is `V[k]`. -/
theorem byteAfterRegs_add {k : Nibble} (hk : k.toNat ≤ x.toNat) :
    byteAfterRegs s x (s.i.toNat + k.toNat) = (s.getV k).toNat := by
  rw [byteAfterRegs, if_pos (by omega), Nat.add_sub_cancel_left, BitVec.ofNat_toNat, BitVec.setWidth_eq]

/-- Settles O44: the bytes after the store by `byteAfterRegs`, and an address written is `I + k` for a `k` up to `x`. -/
theorem storeRegisters : Obligations.StoreRegisters := by
  intro s x hi
  refine runsAs_of_advance rfl (wordXKk_toNat_fixed_first 0xF#4 x 0x55#8) (exec_ldMemIVx_of_le hi) (State.writeBytes_pc ..)
    ⟨fun k hk => ?_, onlyChanges_writeBytes ?_ fun a hlo hhi => ?_⟩
  · exact BitVec.eq_of_toNat_eq ((readByte_writeBytes_regsUpTo hi (by omega)).trans (byteAfterRegs_add hk))
  · rw [length_regsUpTo]
    omega
  · rw [length_regsUpTo] at hhi
    have hoffset : (BitVec.ofNat 4 (a.toNat - s.i.toNat)).toNat = a.toNat - s.i.toNat := by
      rw [BitVec.toNat_ofNat]
      omega
    refine ⟨BitVec.ofNat 4 (a.toNat - s.i.toNat), by omega, ?_⟩
    rw [hoffset]
    exact byte_eq_byte_ofNat_add_sub hlo

/-- R195: a register after `LD Vx, [I]`. -/
theorem getV_setRegs_loadedRegs (s : State) (x k : Nibble) : (s.setRegs (loadedRegs s x)).getV k =
    if k.toNat ≤ x.toNat then s.readByte (memIAddr s k.toNat) else s.getV k := by
  rw [State.getV_setRegs, loadedRegs, Vector.getElem_ofFn, State.getV]

/-- Setting the registers changes no other part than those that differ. -/
theorem onlyChanges_setRegs {parts : Set Part} {v : Vector Byte 16}
    (hregs : ∀ r, Part.reg r ∉ parts → (s.setRegs v).getV r = s.getV r) : OnlyChanges parts s (s.setRegs v) := by
  simpa [OnlyChanges] using hregs

/-- Settles O45: a register up to `x` is loaded and a register above `x` is kept. -/
theorem loadRegisters : Obligations.LoadRegisters := by
  intro s x hi
  refine runsAs_of_advance rfl (wordXKk_toNat_fixed_first 0xF#4 x 0x65#8) (exec_ldVxMemI_of_le hi) (State.setRegs_pc ..)
    ⟨fun k hk => ?_, onlyChanges_setPc_iff.2 (onlyChanges_setRegs fun r hr => ?_)⟩
  · rw [State.getV_setPc, getV_setRegs_loadedRegs, if_pos hk, memIAddr]
  · have hgt : ¬ r.toNat ≤ x.toNat := fun hle => hr ⟨r, hle, rfl⟩
    rw [getV_setRegs_loadedRegs, if_neg hgt]

end Sys2Proof.Machine
end

section
/-! The display instructions: which pixels each changes, what `DRW` leaves in `VF`, and that nothing else changes
(spec/43_display.md R210 to R215). -/

namespace Sys2Proof.Machine

variable {s t : State} {x y n : Nibble}

/-! ### `CLS` -/

/-- Writing the framebuffer changes pixels alone. -/
theorem onlyChanges_setFb (s : State) (f : Frame) :
    OnlyChanges {p | ∃ (x : Fin 64) (y : Fin 32), p = Part.pixel x y} s (s.setFb f) := by
  simp [OnlyChanges]

theorem pixelAt_replicate_zero (px py : Nat) : pixelAt (Vector.replicate 32 0#64) px py = false := by simp [pixelAt]

/-- Settles O47: the one write of `CLS` is the empty framebuffer. -/
theorem clearScreen : Obligations.ClearScreen := fun s =>
  runsAs_of_jump rfl rfl rfl ⟨fun _ _ => pixelAt_replicate_zero .., onlyChanges_setFb s _⟩

/-! ### `DRW` -/

/-- R70, R212: a sprite pixel, by the byte at `(I + r) mod 4096`. -/
theorem spriteBit_spriteRow_iff (s : State) (r b : Nat) : spriteBit (spriteRow s r) b = true ↔
    (s.readByte (BitVec.ofNat 12 ((s.i.toNat + r) % 4096))).toNat / 2 ^ (7 - b) % 2 = 1 := by
  have haddr : BitVec.ofNat 12 ((s.i.toNat + r) % 4096) = BitVec.ofNat 12 (s.i.toNat + r) :=
    BitVec.eq_of_toNat_eq (by simp)
  rw [spriteBit, spriteRow, haddr, BitVec.getLsbD, Nat.testBit_eq_decide_div_mod_eq, decide_eq_true_iff]

/-- R214: after `DRW` a pixel is lit exactly when it was and no lit sprite pixel lands on it, or the other way round. -/
theorem pixelAt_drawSprite_iff_xor_spriteLit (s : State) (x y n : Nibble) (px : Fin 64) (py : Fin 32) :
    pixelAt (drawSprite s (originX s x) (originY s y) n.toNat).1 px.val py.val = true ↔
      Xor (s.pixel px.val py.val = true) (spriteLit s x y n px py) := by
  rw [pixelAt_drawSprite s _ _ _ _ _ px.isLt py.isLt, State.pixel]
  suffices hlit : (∃ r, r < n.toNat ∧ py.val = originY s y + r ∧ ∃ b, b < 8 ∧ px.val = originX s x + b ∧
      spriteBit (spriteRow s r) b = true) ↔ spriteLit s x y n px py by rw [hlit]
  simp only [spriteBit_spriteRow_iff]
  constructor
  · rintro ⟨r, hr, hpy, b, hb, hpx, hbit⟩
    exact ⟨r, b, hr, hb, hpx, hpy, hbit⟩
  · rintro ⟨r, b, hr, hb, hpx, hpy, hbit⟩
    exact ⟨r, hr, hpy, b, hb, hpx, hbit⟩

/-- R214: `DRW` reports a collision exactly when a lit sprite pixel lands on a lit pixel. -/
theorem drawSprite_hit_iff_spriteLit : (drawSprite s (originX s x) (originY s y) n.toNat).2 = true ↔
    ∃ (px : Fin 64) (py : Fin 32), spriteLit s x y n px py ∧ s.pixel px.val py.val = true := by
  simp only [drawSprite_hit, spriteBit_spriteRow_iff]
  constructor
  · rintro ⟨r, hr, hpy, b, hb, hpx, hbit, hset⟩
    exact ⟨⟨_, hpx⟩, ⟨_, hpy⟩, ⟨r, b, hr, hb, rfl, rfl, hbit⟩, hset⟩
  · rintro ⟨⟨_, hpx⟩, ⟨_, hpy⟩, ⟨r, b, hr, hb, rfl, rfl, hbit⟩, hset⟩
    exact ⟨r, hr, hpy, b, hb, hpx, hbit, hset⟩

/-- Writing the framebuffer and then `VF` changes pixels and `VF` alone. -/
theorem onlyChanges_setFb_setV_vf (s : State) (f : Frame) (b : Byte) :
    OnlyChanges {p | p = Part.reg 0xF#4 ∨ ∃ (px : Fin 64) (py : Fin 32), p = Part.pixel px py} s
      ((s.setFb f).setV vf b) := by
  simp +contextual [OnlyChanges, State.getV_setV_ne]

/-- Settles O48: the pixels by `pixelAt_drawSprite_iff_xor_spriteLit`, the flag by `drawSprite_hit_iff_spriteLit`. -/
theorem drawXorsSprite : Obligations.DrawXorsSprite := by
  intro s x y n
  refine runsAs_of_jump rfl (wordXYN_toNat 0xD#4 x y n) rfl
    ⟨fun px py => ?_, fun hcollision => ?_, fun hnone => ?_, onlyChanges_setFb_setV_vf ..⟩
  · rw [State.pixel_setPc, State.pixel_setV, State.pixel_setFb]
    have hpixel := pixelAt_drawSprite_iff_xor_spriteLit s x y n px py
    constructor
    · intro hlit
      rw [Bool.eq_iff_iff, hpixel]
      simp [Xor, hlit]
    · intro hunlit
      rw [Bool.eq_iff_iff, hpixel]
      simp [Xor, hunlit]
  · rw [State.getV_setPc, State.getV_setV_self, drawSprite_hit_iff_spriteLit.2 hcollision]
    rfl
  · rw [State.getV_setPc, State.getV_setV_self, Bool.eq_false_iff.2 fun hhit => hnone (drawSprite_hit_iff_spriteLit.1 hhit)]
    rfl

/-! ### `DRW` twice -/

/-- What `RunsAs` promises of a next state holds of the one that exec answers. -/
theorem of_runsAs_of_next {i : Instr} {word new : Nat} {P : State → Prop} (hruns : RunsAs i word s new P)
    (hnew : new ≤ 0xFFF) (hnext : exec i s = .next t) : P t := by
  obtain ⟨-, hexec⟩ := hruns
  obtain ⟨t', ht', -, hP⟩ := hexec hnew
  obtain rfl : t = t' := by simpa [hnext] using ht'
  exact hP

/-- The sprite and its place are the same in states that agree on the origin, `I` and memory. -/
theorem spriteLit_congr (hx : (t.getV x).toNat % 64 = (s.getV x).toNat % 64)
    (hy : (t.getV y).toNat % 32 = (s.getV y).toNat % 32) (hi : t.i = s.i) (hmem : ∀ a, t.readByte a = s.readByte a)
    (px : Fin 64) (py : Fin 32) : spriteLit t x y n px py ↔ spriteLit s x y n px py := by
  simp only [spriteLit, hx, hy, hi, hmem]

/-- Settles O49: `drawXorsSprite` for each draw. The sprite lands on the same pixels both times, so each is inverted twice or not at
all, and a pixel of the sprite is lit before the second draw exactly when it was unlit before the first. -/
theorem drawTwiceRestores : Obligations.DrawTwiceRestores := by
  intro s t u x y n hfirst hx hy hsecond
  obtain ⟨hpixel, -, -, hframe⟩ := of_runsAs_of_next (drawXorsSprite s x y n) (advance_next_iff.1 hfirst).1 hfirst
  obtain ⟨hpixel', hcollision, hnone, -⟩ :=
    of_runsAs_of_next (drawXorsSprite t x y n) (advance_next_iff.1 hsecond).1 hsecond
  obtain ⟨-, hi, -, -, -, -, hmem, -⟩ := hframe
  have hlit := spriteLit_congr (n := n) hx hy (hi (by simp)) fun a => hmem a (by simp)
  simp only [hlit] at hpixel' hcollision hnone
  have hset (px : Fin 64) (py : Fin 32) : spriteLit s x y n px py ∧ t.pixel px.val py.val = true ↔
      spriteLit s x y n px py ∧ s.pixel px.val py.val = false :=
    and_congr_right fun h => by rw [(hpixel px py).1 h, Bool.not_eq_true']
  simp only [hset] at hcollision hnone
  refine ⟨fun px py => ?_, hcollision, hnone⟩
  by_cases h : spriteLit s x y n px py
  · rw [(hpixel' px py).1 h, (hpixel px py).1 h, Bool.not_not]
  · rw [(hpixel' px py).2 h, (hpixel px py).2 h]

end Sys2Proof.Machine
end

section
/-! The keypad and timer instructions: the skips on a key, the wait for one, and the loads of the timers
(spec/44_keypad_timers.md R230 to R236). -/

namespace Sys2Proof.Machine

variable {s : State} {x : Nibble}

/-! ### The level of a key -/

/-- R35, R236: key `k` is down exactly when bit `k` of the keypad is set. -/
theorem keyDown_iff {keypad : BitVec 16} {k : Nat} : keyDown keypad k = true ↔ keypad.toNat / 2 ^ k % 2 = 1 := by
  rw [keyDown, BitVec.getLsbD, Nat.testBit_eq_decide_div_mod_eq, decide_eq_true_iff]

/-- The test of `SKP`, on the keypad as a number. -/
theorem ite_keyDown_beq_true (keypad : BitVec 16) (k : Nat) :
    (if keyDown keypad k == true then 4 else 2) = if keypad.toNat / 2 ^ k % 2 = 1 then 4 else 2 := by
  simp only [← keyDown_iff, beq_true]

/-- The test of `SKNP`, on the keypad as a number. -/
theorem ite_keyDown_beq_false (keypad : BitVec 16) (k : Nat) :
    (if keyDown keypad k == false then 4 else 2) = if keypad.toNat / 2 ^ k % 2 = 1 then 2 else 4 := by
  simp only [← keyDown_iff]
  cases keyDown keypad k <;> rfl

/-- With a key index, a skip on a key is a skip on its level. -/
theorem skipIfKey_of_le {op : Word} {want : Bool} (hx : (s.getV x).toNat ≤ 15) :
    skipIfKey op x want s = skipIf op (keyDown s.env.keypad (s.getV x).toNat == want) s := if_pos hx

/-- Settles O50: each is a skip, on the level of key `V[x]` or its negation. -/
theorem keySkipsTestLevel : Obligations.KeySkipsTestLevel := by
  intro s x hx
  simp only [← ite_keyDown_beq_true, ← ite_keyDown_beq_false]
  exact ⟨runsAs_of_skipIf rfl (wordXKk_toNat_fixed_first 0xE#4 x 0x9E#8) (skipIfKey_of_le hx),
    runsAs_of_skipIf rfl (wordXKk_toNat_fixed_first 0xE#4 x 0xA1#8) (skipIfKey_of_le hx)⟩

/-! ### The wait for a key -/

/-- A jump to the instruction's own address leaves the state as it was. -/
theorem jump_own_pc (op : Word) (s : State) : jump op s.pc.toNat s = .next s := by
  have hpc : s.pc.toNat ≤ 0xFFF := by omega
  rw [jump_of_le hpc, BitVec.ofNat_toNat, BitVec.setWidth_eq]
  rfl

/-- R233: with no key down `LD Vx, K` is a jump to its own address. -/
theorem exec_ldVxK_of_none (h : chosenKey s.env.keypad s.env.keyPick = none) :
    exec (.ldVxK x) s = jump (encode (.ldVxK x)) s.pc.toNat s := by
  rw [exec, execLdVxK, h]

/-- R233: with a key chosen `LD Vx, K` is sequential and writes its index to `V[x]`. -/
theorem exec_ldVxK_of_some {k : Nat} (h : chosenKey s.env.keypad s.env.keyPick = some k) :
    exec (.ldVxK x) s = advance (encode (.ldVxK x)) (s.setV x (BitVec.ofNat 8 k)) := by
  rw [exec, execLdVxK, h]

/-- A byte holds the index of a key. -/
theorem toNat_byte_of_lt_sixteen {k : Nat} (hk : k < 16) : (BitVec.ofNat 8 k).toNat = k := by
  rw [BitVec.toNat_ofNat]
  omega

/-- Settles O52: no key is chosen exactly when none is down, and a key that is chosen is down. -/
theorem waitKeyReexecutesOrCompletes : Obligations.WaitKeyReexecutesOrCompletes := by
  intro s x
  refine ⟨fun hnone => ?_, fun hsome => ?_⟩
  · rw [exec_ldVxK_of_none (chosenKey_eq_none_iff.2 hnone), jump_own_pc]
  · obtain ⟨k, hk⟩ := Option.ne_none_iff_exists'.1 (mt chosenKey_eq_none_iff.1 hsome)
    obtain ⟨hlt, hdown⟩ := chosenKey_down hk
    refine runsAs_of_advance rfl (wordXKk_toNat_fixed_first 0xF#4 x 0x0A#8) (exec_ldVxK_of_some hk) rfl ?_
    rw [State.getV_setPc, State.getV_setV_self, toNat_byte_of_lt_sixteen hlt]
    exact ⟨by omega, keyDown_iff.1 hdown, onlyChanges_setV ..⟩

/-- Settles O53: the pick that chooses `k` among the keys down. -/
theorem everyKeyDownMayBeChosen : Obligations.EveryKeyDownMayBeChosen := by
  intro s x k hdown hpc
  obtain ⟨pick, hpick⟩ := chosenKey_surjective k.isLt (keyDown_iff.2 hdown)
  refine ⟨pick, _, (exec_ldVxK_of_some (s := s.setKeyPick pick) hpick).trans (jump_of_le hpc), ?_⟩
  rw [State.getV_setPc, State.getV_setV_self, toNat_byte_of_lt_sixteen k.isLt]

/-! ### The timers -/

/-- Writing `DT` changes `DT` alone. -/
theorem onlyChanges_setDt (s : State) (b : Byte) : OnlyChanges {Part.dt} s (s.setDt b) := by simp [OnlyChanges]

/-- Writing `ST` changes `ST` alone. -/
theorem onlyChanges_setSt (s : State) (b : Byte) : OnlyChanges {Part.st} s (s.setSt b) := by simp [OnlyChanges]

/-- Settles O54: the one write of each is to `V[x]`, `DT` or `ST`, of the value named. -/
theorem timerLoads : Obligations.TimerLoads := fun s x =>
  ⟨runsAs_of_jump rfl (wordXKk_toNat_fixed_first 0xF#4 x 0x07#8) rfl ⟨State.getV_setV_self .., onlyChanges_setV ..⟩,
    runsAs_of_jump rfl (wordXKk_toNat_fixed_first 0xF#4 x 0x15#8) rfl ⟨rfl, onlyChanges_setDt s _⟩,
    runsAs_of_jump rfl (wordXKk_toNat_fixed_first 0xF#4 x 0x18#8) rfl ⟨rfl, onlyChanges_setSt s _⟩⟩

end Sys2Proof.Machine
end

section
/-! The invariant through every event: RESET, STEP, TICK, a keypad change, and fault entry (spec/10_state.md R37,
spec/60_exceptions.md R257, R267). -/

namespace Sys2Proof.Machine

variable {s t : State}

/-- Whatever an event answers, the core is left in a state that meets the invariant, if a next state meets it: fault entry sets
the halted flag and the record together, and a refusal changes nothing. -/
theorem State.inv_settle {o : Host.Outcome State Fault Refusal} (hs : s.Inv) (hnext : ∀ t, o = .next t → t.Inv) :
    (s.settle o).Inv := by
  cases o with
  | next t => exact hnext t rfl
  | fault f =>
    obtain ⟨hwf, -⟩ := hs
    exact ⟨hwf, rfl⟩
  | refused r => exact hs

/-- RESET builds memory from the canonical empty list, with any font, and clears the halted flag and the record. -/
theorem resetEvent_next_inv {rom : List Byte} (h : s.resetEvent rom = .next t) : t.Inv := by
  unfold State.resetEvent at h
  split at h
  · cases h
    exact State.inv_writeBytes _ _ ⟨rfl, rfl⟩
  · cases h

/-- A STEP that answers a next state keeps the invariant, as the instruction it executes does. -/
theorem stepEvent_keeps_inv (hs : s.Inv) (h : s.stepEvent = .next t) : t.Inv := by
  obtain ⟨i, -, -, hexec⟩ := stepEvent_next h
  exact exec_keeps_inv hs hexec

/-- A TICK that answers a next state changes the timers alone. -/
theorem event_tick_keeps_inv (hs : s.Inv) (h : s.event .tick = .next t) : t.Inv := by
  rw [State.event] at h
  split at h
  · cases h
  · cases h
    exact hs

/-- Settles O20: each event that answers a next state keeps the invariant, and so does fault entry. -/
theorem eventsKeepInvariant : Obligations.EventsKeepInvariant := by
  intro s e hs
  refine State.inv_settle hs fun t h => ?_
  cases e with
  | reset rom => exact resetEvent_next_inv h
  | step pick => exact stepEvent_keeps_inv (s := s.setKeyPick pick) hs h
  | tick => exact event_tick_keeps_inv hs h
  | keypad keys => cases h; exact hs

end Sys2Proof.Machine
end

section
/-! How an instruction ends: at its new `pc`, or with one of its own faults (spec/60_exceptions.md R250 to R256, R259, R263). -/

namespace Sys2Proof.Machine

variable {s : State} {i : Instr} {x : Nibble}

/-- `Ends s i o`: `o` is an outcome that instruction `i` may have in `s`. It jumps to a new `pc`, which is at most four past its
own, or an address, or the sum of `JP V0`; or it raises the fault of its own check. -/
inductive Ends (s : State) : Instr → Host.Outcome State Fault Refusal → Prop
  | near {i : Instr} (new : Nat) (u : State) (hnew : new ≤ s.pc.toNat + 4) : Ends s i (jump (encode i) new u)
  | address {i : Instr} (a : Addr) (u : State) : Ends s i (jump (encode i) a.toNat u)
  | sum (nnn : Addr) (u : State) :
    Ends s (.jpV0Nnn nnn) (jump (encode (.jpV0Nnn nnn)) (nnn.toNat + (s.getV 0#4).toNat) u)
  | stackOverflow (nnn : Addr) (hfull : s.sp.val = 16) :
    Ends s (.callNnn nnn) (.fault (.stackOverflow s.pc (encode (.callNnn nnn))))
  | returnPastTop (nnn : Addr) (hpc : 0xFFF < s.pc.toNat + 2) :
    Ends s (.callNnn nnn) (.fault (.pcOutOfRange s.pc (some (encode (.callNnn nnn)))))
  | stackUnderflow (hempty : s.sp.val = 0) : Ends s .ret (.fault (.stackUnderflow s.pc (encode .ret)))
  | digitsPastTop (x : Nibble) (hi : 4095 < s.i.toNat + 2) :
    Ends s (.ldBVx x) (.fault (.memoryFault s.pc (encode (.ldBVx x))))
  | transferPastTop {i : Instr} (x : Nibble) (htransfer : i = .ldMemIVx x ∨ i = .ldVxMemI x)
    (hi : 4095 < s.i.toNat + x.toNat) : Ends s i (.fault (.memoryFault s.pc (encode i)))
  | keyIndex {i : Instr} (x : Nibble) (hskip : i = .skpVx x ∨ i = .sknpVx x) (hx : 15 < (s.getV x).toNat) :
    Ends s i (.fault (.keyIndexOutOfRange s.pc (encode i)))

theorem ends_advance {u : State} (hpc : u.pc = s.pc) : Ends s i (advance (encode i) u) :=
  .near _ u (by rw [hpc]; omega)

theorem ends_skipIf {c : Bool} : Ends s i (skipIf (encode i) c s) := .near _ s (by split <;> omega)

/-- With no key index, a skip on a key faults (R255). -/
theorem skipIfKey_of_gt {op : Word} {want : Bool} (hx : 15 < (s.getV x).toNat) :
    skipIfKey op x want s = .fault (.keyIndexOutOfRange s.pc op) := if_neg (Nat.not_le.2 hx)

theorem ends_skipIfKey {want : Bool} (hskip : i = .skpVx x ∨ i = .sknpVx x) :
    Ends s i (skipIfKey (encode i) x want s) := by
  rcases Nat.lt_or_ge 15 (s.getV x).toNat with hx | hx
  · rw [skipIfKey_of_gt hx]
    exact .keyIndex x hskip hx
  · rw [skipIfKey_of_le hx]
    exact ends_skipIf

theorem ends_checkedThroughI {k : Nat} {run : State → Host.Outcome State Fault Refusal}
    (hgt : 4095 < s.i.toNat + k → Ends s i (.fault (.memoryFault s.pc (encode i)))) (hrun : Ends s i (run s)) :
    Ends s i (checkedThroughI (encode i) k s run) := by
  rcases Nat.lt_or_ge 4095 (s.i.toNat + k) with h | h
  · rw [checkedThroughI_of_gt h]
    exact hgt h
  · rw [checkedThroughI_of_le h]
    exact hrun

theorem ends_execRet : Ends s .ret (execRet s) := by
  rcases s.sp_eq_zero_or_succ with h | ⟨k, h⟩
  · rw [execRet_of_zero h]
    exact .stackUnderflow h
  · rw [execRet_of_succ h]
    exact .address _ _

theorem ends_execCallNnn {nnn : Addr} : Ends s (.callNnn nnn) (execCallNnn nnn s) := by
  rcases s.sp_lt_or_full with h | h
  · rcases Nat.lt_or_ge 0xFFF (s.pc.toNat + 2) with hpc | hpc
    · rw [execCallNnn_of_gt h hpc]
      exact .returnPastTop nnn hpc
    · rw [execCallNnn_of_lt h hpc]
      exact .address _ _
  · rw [execCallNnn_of_full h]
    exact .stackOverflow nnn h

theorem ends_execLdVxK : Ends s (.ldVxK x) (execLdVxK x s) := by
  unfold execLdVxK
  split
  · exact .address _ _
  · exact ends_advance rfl

/-- Every instruction ends in one of these ways, in every state. -/
theorem exec_ends (i : Instr) (s : State) : Ends s i (exec i s) := by
  cases i
  case ret => exact ends_execRet
  case callNnn => exact ends_execCallNnn
  case jpNnn => exact .address _ _
  case jpV0Nnn => exact .sum _ _
  case seVxKk | sneVxKk | seVxVy | sneVxVy => exact ends_skipIf
  case skpVx => exact ends_skipIfKey (.inl rfl)
  case sknpVx => exact ends_skipIfKey (.inr rfl)
  case ldVxK => exact ends_execLdVxK
  case ldBVx =>
    rw [exec, execLdBVx]
    exact ends_checkedThroughI (.digitsPastTop _) (ends_advance (State.writeBytes_pc _ _ _))
  case ldMemIVx =>
    rw [exec, execLdMemIVx]
    exact ends_checkedThroughI (.transferPastTop _ (.inl rfl)) (ends_advance (State.writeBytes_pc _ _ _))
  case ldVxMemI =>
    rw [exec, execLdVxMemI]
    exact ends_checkedThroughI (.transferPastTop _ (.inr rfl)) (ends_advance (State.setRegs_pc _ _))
  all_goals exact ends_advance rfl

/-- An instruction ends with a jump, which is never refused, or with a fault. -/
theorem Ends.ne_refused {o : Host.Outcome State Fault Refusal} {r : Refusal} (h : Ends s i o) : o ≠ .refused r := by
  cases h with
  | near | address | sum => exact jump_ne_refused
  | _ => nofun

/-- Settles O13: no end of an instruction is a refusal. -/
theorem noInstructionIsRefused : Obligations.NoInstructionIsRefused := fun i s _ => (exec_ends i s).ne_refused

/-- Settles O11: a jump raises `PcOutOfRange` alone, and every other fault is that of an instruction's own check. -/
theorem faultsOnlyFromTheirCauses : Obligations.FaultsOnlyFromTheirCauses := by
  intro i s f h
  have hends : Ends s i (exec i s) := exec_ends i s
  generalize exec i s = o at h hends
  cases hends with
  | near new u hnew =>
    obtain ⟨hgt, rfl⟩ := jump_fault_iff.1 h
    exact ⟨nofun, .inl (by omega)⟩
  | address a u =>
    obtain ⟨hgt, -⟩ := jump_fault_iff.1 h
    omega
  | sum nnn u =>
    obtain ⟨hgt, rfl⟩ := jump_fault_iff.1 h
    exact ⟨nofun, .inr ⟨nnn, rfl, hgt⟩⟩
  | stackOverflow nnn hfull => cases h; exact ⟨nnn, rfl, hfull⟩
  | returnPastTop nnn hpc => cases h; exact ⟨nofun, .inl (by omega)⟩
  | stackUnderflow hempty => cases h; exact ⟨rfl, hempty⟩
  | digitsPastTop x hi => cases h; exact .inl ⟨x, rfl, hi⟩
  | transferPastTop x htransfer hi => cases h; exact .inr ⟨x, htransfer, hi⟩
  | keyIndex x hskip hx => cases h; exact ⟨x, hskip, hx⟩

/-- R250: where the word fetched decodes to none, the STEP raises `IllegalInstruction`. -/
theorem stepEvent_of_decode_none (hrun : s.halted = false) (hpc : s.pc.toNat ≤ 0xFFE)
    (hdec : decode s.fetchWord = none) : s.stepEvent = .fault (.illegalInstruction s.pc s.fetchWord) := by
  simp [State.stepEvent, hrun, fetch_of_le hpc, hdec, raise]

/-- Settles O7: a word that decodes is executed, and no instruction raises `IllegalInstruction`. -/
theorem illegalInstructionExactly : Obligations.IllegalInstructionExactly := by
  intro s op hrun hpc hword
  obtain rfl := eq_fetchWord_of_toNat hword
  simp only [step_fault_iff]
  cases hdec : decode s.fetchWord with
  | none =>
    have hstep := stepEvent_of_decode_none hrun hpc hdec
    refine ⟨fun _ => hstep, fun a w h => ?_⟩
    cases hstep.symm.trans h
    exact ⟨rfl, rfl, rfl⟩
  | some i =>
    refine ⟨nofun, fun a w h => ?_⟩
    rw [stepEvent_eq_exec hrun hpc hdec] at h
    exact (faultsOnlyFromTheirCauses i s _ h).elim

/-- R255: a skip on a key raises `KeyIndexOutOfRange` exactly when `V[x]` is no key index; the skip itself raises
`PcOutOfRange` alone. -/
theorem skipIfKey_keyIndexOutOfRange_iff {op : Word} {want : Bool} :
    (∃ a w, skipIfKey op x want s = .fault (.keyIndexOutOfRange a w)) ↔ 15 < (s.getV x).toNat := by
  rcases Nat.lt_or_ge 15 (s.getV x).toNat with hx | hx
  · simp [skipIfKey_of_gt hx, hx]
  · simp [skipIfKey_of_le hx, skipIf_fault_iff, hx]

/-- Settles O51: both are skips on a key, and the word recorded is their own. -/
theorem keyIndexPastFifteenFaults : Obligations.KeyIndexPastFifteenFaults := by
  intro s x
  simp only [exec, execSkpVx, execSknpVx, encode, wordXKk_eq_ofNat]
  exact ⟨skipIfKey_keyIndexOutOfRange_iff, skipIfKey_of_gt, skipIfKey_keyIndexOutOfRange_iff, skipIfKey_of_gt⟩

end Sys2Proof.Machine
end

section
/-! A new `pc` above 0xFFF (spec/60_exceptions.md R254): every end of an instruction but a jump to an address can reach past the
top of memory, and faults there. -/

namespace Sys2Proof.Machine

variable {s : State} {op : Word}

/-- A jump to an address does not fault. -/
theorem jump_address_ne_fault {a : Addr} {f : Fault} : jump op a.toNat s ≠ .fault f := by
  intro h
  obtain ⟨hgt, -⟩ := jump_fault_iff.1 h
  omega

/-- A sequential instruction whose writes leave `pc` alone faults where the next address is past the top. -/
theorem advance_of_gt {u : State} (hpc : u.pc = s.pc) (h : 0xFFF < s.pc.toNat + 2) :
    advance op u = .fault (.pcOutOfRange s.pc (some op)) := by
  rw [← hpc] at h ⊢
  exact jump_of_gt h

/-- R131: `RET` faults on an empty stack alone, since a stack entry is an address. -/
theorem execRet_ne_pcOutOfRange {a : Addr} {w : Option Word} : execRet s ≠ .fault (.pcOutOfRange a w) := by
  rcases s.sp_eq_zero_or_succ with h | ⟨k, h⟩
  · rw [execRet_of_zero h]
    nofun
  · rw [execRet_of_succ h]
    exact jump_address_ne_fault

/-- Settles O12: each instruction that passes its own check is a jump to the new `pc` that the statement names, `CALL` apart,
whose return address is checked before it jumps. -/
theorem pcPastTheTopFaults : Obligations.PcPastTheTopFaults := by
  intro i s
  cases i
  case jpNnn => exact fun a w => jump_address_ne_fault
  case ret => exact fun a w => execRet_ne_pcOutOfRange
  case callNnn => exact execCallNnn_of_gt
  case jpV0Nnn => exact jump_of_gt
  case seVxKk | seVxVy => exact fun h => jump_of_gt (by rwa [ite_beq_eq_ite_toNat])
  case sneVxKk | sneVxVy => exact fun h => jump_of_gt (by rwa [ite_bne_eq_ite_toNat])
  case skpVx => exact fun hx h => (skipIfKey_of_le hx).trans (jump_of_gt (by rwa [ite_keyDown_beq_true]))
  case sknpVx => exact fun hx h => (skipIfKey_of_le hx).trans (jump_of_gt (by rwa [ite_keyDown_beq_false]))
  case ldVxK =>
    refine ⟨fun hnone f => ?_, fun hsome h => ?_⟩
    · rw [exec_ldVxK_of_none (chosenKey_eq_none_iff.2 hnone)]
      exact jump_address_ne_fault
    · obtain ⟨k, hk⟩ := Option.ne_none_iff_exists'.1 (mt chosenKey_eq_none_iff.1 hsome)
      rw [exec_ldVxK_of_some hk]
      exact advance_of_gt rfl h
  case ldBVx =>
    rw [exec, execLdBVx]
    exact fun hi h => (checkedThroughI_of_le hi).trans (advance_of_gt (State.writeBytes_pc _ _ _) h)
  case ldMemIVx =>
    rw [exec, execLdMemIVx]
    exact fun hi h => (checkedThroughI_of_le hi).trans (advance_of_gt (State.writeBytes_pc _ _ _) h)
  case ldVxMemI =>
    rw [exec, execLdVxMemI]
    exact fun hi h => (checkedThroughI_of_le hi).trans (advance_of_gt (State.setRegs_pc _ _) h)
  all_goals exact advance_of_gt rfl

end Sys2Proof.Machine
end

section
/-! TICK and the host's turn (spec/60_exceptions.md R267, R268, spec/44_keypad_timers.md R236). -/

namespace Sys2Proof.Machine

/-- `DT` and `ST` after a number of TICKs. -/
theorem tick_iterate_timers (n : Nat) (s : State) :
    (State.tick^[n] s).dt = tickDown n s.dt ∧ (State.tick^[n] s).st = tickDown n s.st := by
  induction n generalizing s with
  | zero => simp [tickDown]
  | succ n ih =>
    obtain ⟨hdt, hst⟩ := ih s.tick
    rw [Function.iterate_succ_apply, hdt, hst, State.tick_dt, State.tick_st, tickDown_tickDown, tickDown_tickDown,
      Nat.add_comm 1 n]
    exact ⟨rfl, rfl⟩

/-- Settles O26: both timers by `tickDown_toNat`, which saturates at 0 as subtraction of numbers does. -/
theorem tickDecrementsTimers : Obligations.TickDecrementsTimers := by
  intro s
  refine ⟨fun _ => tickDown_toNat 1 s.dt, fun hzero => ?_, fun _ => tickDown_toNat 1 s.st, fun hzero => ?_, ?_, rfl⟩
  · rw [State.tick_dt, tickDown_toNat, hzero]
  · rw [State.tick_st, tickDown_toNat, hzero]
  · simp [OnlyChanges]

/-- Settles O27: the turn takes its TICKs off both timers at once, as that many single ones do; its other writes are those
of the inputs. -/
theorem hostTurnIsTicksAndKeypad : Obligations.HostTurnIsTicksAndKeypad := by
  intro s
  obtain ⟨hdt, hst⟩ := tick_iterate_timers s.nextTurn.ticks s
  refine ⟨hdt.symm, hst.symm, rfl, rfl, rfl, rfl, ?_⟩
  simp [OnlyChanges, State.getV, State.readByte, State.pixel]

end Sys2Proof.Machine
end

section
/-! RESET (spec/70_reset_and_hazards.md R290 to R294): the ROM written over a state of which nothing but the font and the inputs
comes from the state before. -/

namespace Sys2Proof.Machine

variable {s t : State} {rom : List Byte}

/-- The state RESET writes the ROM over: that of an empty ROM, with the font and the inputs of `s` (R292). -/
def State.blank (s : State) : State := { State.reset with font := s.font, env := s.env }

/-- RESET answers a next state exactly for a ROM that fits, and then the ROM stands from 0x200 up in the blank state. -/
theorem resetEvent_next_iff :
    s.resetEvent rom = .next t ↔ rom.length ≤ 3584 ∧ t = s.blank.writeBytes 0x200 rom := by
  rw [State.resetEvent]
  split
  next hfits => simp [hfits, State.blank, eq_comm]
  next hlong => simp [hlong]

/-- RESET is refused exactly for a ROM that does not fit. -/
theorem resetEvent_refused_iff : s.resetEvent rom = .refused .romTooLong ↔ 3584 < rom.length := by
  rw [State.resetEvent]
  split
  next hfits => simpa using hfits
  next hlong => simpa using hlong

/-- Settles O16: the length of the ROM is all that RESET checks. -/
theorem resetRefusesLongRom : Obligations.ResetRefusesLongRom := fun _ _ => resetEvent_refused_iff.symm

/-! ### Memory after RESET -/

/-- R31, R32: the blank state holds the font of `s` at 0x000 and zeros past it. -/
theorem readByte_blank (a : Addr) : s.blank.readByte a = if h : a.toNat < 80 then s.font[a.toNat] else 0#8 := rfl

/-- R292: byte `k` of the ROM stands at `0x200 + k`. -/
theorem readByte_loadRom {k : Nat} (hfits : rom.length ≤ 3584) (hk : k < rom.length) :
    (s.writeBytes 0x200 rom).readByte (BitVec.ofNat 12 (0x200 + k)) = rom[k] := by
  have ha : (BitVec.ofNat 12 (0x200 + k)).toNat = 0x200 + k := toNat_pc_of_le (by omega)
  rw [State.readByte_writeBytes _ _ _ _ (by omega), dif_pos (by omega)]
  simp only [ha, Nat.add_sub_cancel_left]

/-- R292: the ROM changes no byte below 0x200 and none past its own end. -/
theorem readByte_loadRom_of_outside {a : Addr} (hfits : rom.length ≤ 3584)
    (ha : a.toNat < 0x200 ∨ 0x200 + rom.length ≤ a.toNat) : (s.writeBytes 0x200 rom).readByte a = s.readByte a := by
  rw [State.readByte_writeBytes _ _ _ _ (by omega), dif_neg (by omega)]

/-- R292: after RESET the font stands at 0x000, as the ROM begins past it. -/
theorem readByte_loadRom_blank_font (hfits : rom.length ≤ 3584) (k : Fin 80) :
    (s.blank.writeBytes 0x200 rom).readByte (BitVec.ofNat 12 k.val) = s.font[k] := by
  have ha : (BitVec.ofNat 12 k.val).toNat = k.val := toNat_pc_of_le (by omega)
  rw [readByte_loadRom_of_outside hfits (.inl (by omega)), readByte_blank, dif_pos (by omega)]
  simp only [ha, Fin.getElem_fin]

/-- R292: after RESET every byte that is neither the font's nor the ROM's is 0. -/
theorem readByte_loadRom_blank_zero {a : Addr} (hfits : rom.length ≤ 3584) (hfont : 80 ≤ a.toNat)
    (hrom : a.toNat < 0x200 ∨ 0x200 + rom.length ≤ a.toNat) : (s.blank.writeBytes 0x200 rom).readByte a = 0#8 := by
  rw [readByte_loadRom_of_outside hfits hrom, readByte_blank, dif_neg (by omega)]

/-- Settles O15: memory by the three lemmas about its bytes; the ROM leaves every other part as it is in the blank state, where
it has its reset value or is the font or the inputs of `s`. -/
theorem resetEventBuildsState : Obligations.ResetEventBuildsState := by
  intro s rom hfits
  obtain ⟨hv, hi, hpc, hsp, hstack, hdt, hst, -, -, hpixel, hhalted, hfault⟩ := resetValues
  have hload := State.writeBytes_eq s.blank 0x200 rom
  have hfont := readByte_loadRom_blank_font (s := s) hfits
  have hrom (k : Fin rom.length) := readByte_loadRom (s := s.blank) hfits k.isLt
  have hzero (a : Addr) := readByte_loadRom_blank_zero (s := s) (a := a) hfits
  rw [hload] at hfont hrom hzero
  exact ⟨_, resetEvent_next_iff.2 ⟨hfits, hload.symm⟩, hv, hi, hpc, hsp, hstack, hdt, hst, hpixel, hfont, hrom, hzero,
    hhalted, hfault, rfl, rfl⟩

/-- Settles O17: `pc` is 0x200, and the two bytes from there up are the first two of the ROM. -/
theorem firstFetchAfterReset : Obligations.FirstFetchAfterReset := by
  intro s t b0 b1 rest h
  obtain ⟨hfits, rfl⟩ := resetEvent_next_iff.1 h
  have hpc : (s.blank.writeBytes 0x200 (b0 :: b1 :: rest)).pc = 0x200#12 := State.writeBytes_pc _ _ _
  have hfirst := readByte_loadRom (s := s.blank) (k := 0) hfits (by simp)
  have hsecond := readByte_loadRom (s := s.blank) (k := 1) hfits (by simp)
  refine ⟨_, fetch_of_le (by rw [hpc]; decide), ?_⟩
  rw [fetchWord_toNat, hpc]
  exact congrArg₂ (fun hi lo : Byte => 256 * hi.toNat + lo.toNat) hfirst hsecond

end Sys2Proof.Machine
end
